-- ==== Sys2Proof/Word.lean ====
section
/-! DEFINITION. The word types of the core: everything it holds is one unsigned byte (00_scope.md R7, R10). -/

namespace Sys2Proof

/-- A register, memory cell, operand or stack pointer value: unsigned, 8 bits (R10). -/
abbrev Byte := BitVec 8

/-- An address of the one memory space: 0..255, so every value of the type is an existing cell (R34, R36). -/
abbrev Addr := BitVec 8

/-- The index of one of the eight general registers R0 to R7 (10_state.md R15). -/
abbrev Reg := Fin 8

end Sys2Proof
end

