-- ==== Sys2Proof/Config.lean ====
section
/-! DEFINITION. What is fixed for the machine: its parameters (00_scope.md R7), the names of its instructions and
formats, the type of the opcode map `opcode_of` (R8), and the one value the spec leaves open to the host (R98). -/

namespace Sys2Proof

/-- The thirteen instructions by name, in the order of 30_encoding.md R52. -/
inductive Mnemonic where
  | hlt | ldi | prn | mul | push | pop | add | call | ret | cmp | jmp | jeq | jne
  deriving DecidableEq, Repr

/-- The four instruction formats of 30_encoding.md R49. -/
inductive Format where
  /-- No operand. -/
  | Z
  /-- One register, `a`. -/
  | R
  /-- Two registers, `a` and `b`. -/
  | RR
  /-- A register `a` and an 8-bit immediate `b`. -/
  | RI
  deriving DecidableEq, Repr

/-- Which operand byte a register field stands in (60_exceptions.md R95, the `field` of BadRegister). -/
inductive RegField where
  | a
  | b
  deriving DecidableEq, Repr

/-- The parameter `opcode_of` (R8): the byte value of each opcode. -/
abbrev OpcodeMap := Mnemonic → Byte

/-- `opcode_of` must be injective (R8). -/
abbrev OpcodeMap.Injective (om : OpcodeMap) : Prop := ∀ m n : Mnemonic, om m = om n → m = n

/-- `SP_RESET` = 244 (R7). -/
def Config.spReset : Byte := 0xF4

/-- `PC_RESET` = 0 (R7). -/
def Config.pcReset : Nat := 0

/-- `MEM_SIZE` = 256 cells (R7). -/
def Config.memSize : Nat := 256

/-- The host process's exit status after a run that ends Faulted: an OPEN parameter (60_exceptions.md R98,
92_eei_decisions.md D18). No body, so nothing can be proved of its value. Log entry 15. -/
opaque Config.faultExitStatus : Nat

end Sys2Proof
end

