-- ==== Sys2Proof/Syntax.lean ====
section
/-! DEFINITION. The instruction set whole: one constructor per row of spec/opcode_table.json (30_encoding.md R52),
with the operand bytes its format uses (R49). A register operand is kept as the raw byte the encoding holds: a byte
above 7 is a well-formedness question here and a BadRegister fault in the machine (40_fetch_decode_execute.md R66). -/

namespace Sys2Proof

inductive Instr where
  /-- `HLT` (R91). -/
  | hlt
  /-- `LDI Ra, b` (R72): `b` is an immediate. -/
  | ldi (a b : Byte)
  /-- `PRN Ra` (R92). -/
  | prn (a : Byte)
  /-- `MUL Ra, Rb` (R77). -/
  | mul (a b : Byte)
  /-- `PUSH Ra` (R81). -/
  | push (a : Byte)
  /-- `POP Ra` (R82). -/
  | pop (a : Byte)
  /-- `ADD Ra, Rb` (R76). -/
  | add (a b : Byte)
  /-- `CALL Ra` (R83). -/
  | call (a : Byte)
  /-- `RET` (R84). -/
  | ret
  /-- `CMP Ra, Rb` (R78). -/
  | cmp (a b : Byte)
  /-- `JMP Ra` (R88). -/
  | jmp (a : Byte)
  /-- `JEQ Ra` (R89). -/
  | jeq (a : Byte)
  /-- `JNE Ra` (R90). -/
  | jne (a : Byte)
  deriving DecidableEq, Repr

/-- The name of an instruction's opcode. -/
def Instr.mnemonic : Instr → Mnemonic
  | .hlt => .hlt
  | .ldi _ _ => .ldi
  | .prn _ => .prn
  | .mul _ _ => .mul
  | .push _ => .push
  | .pop _ => .pop
  | .add _ _ => .add
  | .call _ => .call
  | .ret => .ret
  | .cmp _ _ => .cmp
  | .jmp _ => .jmp
  | .jeq _ => .jeq
  | .jne _ => .jne

end Sys2Proof
end

