-- ==== Sys2Proof/WellFormed.lean ====
section
/-! DEFINITION. Which instructions are well formed: every field the format names as a register index holds 0..7
(30_encoding.md R51). An immediate is well formed at every value. -/

namespace Sys2Proof

/-- The operand fields an instruction uses as register indices, in the order they are checked: `a`, then `b`
(40_fetch_decode_execute.md R66). -/
def Instr.regFields : Instr → List (RegField × Byte)
  | .hlt => []
  | .ldi a _ => [(.a, a)]
  | .prn a => [(.a, a)]
  | .mul a b => [(.a, a), (.b, b)]
  | .push a => [(.a, a)]
  | .pop a => [(.a, a)]
  | .add a b => [(.a, a), (.b, b)]
  | .call a => [(.a, a)]
  | .ret => []
  | .cmp a b => [(.a, a), (.b, b)]
  | .jmp a => [(.a, a)]
  | .jeq a => [(.a, a)]
  | .jne a => [(.a, a)]

/-- The first register field, in checking order, that names no register, with its value. -/
def Instr.firstBadField (i : Instr) : Option (RegField × Byte) :=
  i.regFields.find? (fun f => decide (7 < f.2.toNat))

/-- Every register field names one of R0 to R7. -/
def Instr.wf (i : Instr) : Bool :=
  i.regFields.all (fun f => decide (f.2.toNat < 8))

end Sys2Proof
end

