-- ==== Sys2Proof/Decode.lean ====
section
/-! DEFINITION. From bytes to instructions and back (30_encoding.md R49 to R56, 40_fetch_decode_execute.md R64, R65).
Both directions take the opcode map `opcode_of` as an argument (00_scope.md R8); `opcodeOf` is its default. -/

namespace Sys2Proof

/-- The default `opcode_of`: the LS-8 values (R8, R52). PRESUMED by the spec itself ("from general knowledge, not in
source", 92_eei_decisions.md D1); unsafe; log entry 1. -/
def opcodeOf : OpcodeMap
  | .hlt => 0x01
  | .ldi => 0x82
  | .prn => 0x47
  | .mul => 0xA2
  | .push => 0x45
  | .pop => 0x46
  | .add => 0xA0
  | .call => 0x50
  | .ret => 0x11
  | .cmp => 0xA7
  | .jmp => 0x54
  | .jeq => 0x55
  | .jne => 0x56

/-- All thirteen mnemonics, in the order of R52's table. -/
def allMnemonics : List Mnemonic :=
  [.hlt, .ldi, .prn, .mul, .push, .pop, .add, .call, .ret, .cmp, .jmp, .jeq, .jne]

/-- The format of each instruction (R52). -/
def Mnemonic.format : Mnemonic → Format
  | .hlt => .Z
  | .ldi => .RI
  | .prn => .R
  | .mul => .RR
  | .push => .R
  | .pop => .R
  | .add => .RR
  | .call => .R
  | .ret => .Z
  | .cmp => .RR
  | .jmp => .R
  | .jeq => .R
  | .jne => .R

/-- The length in bytes of each format (R49). -/
def Format.length : Format → Nat
  | .Z => 1
  | .R => 2
  | .RR => 3
  | .RI => 3

/-- The length of an instruction depends only on its opcode (R50). -/
def Mnemonic.length (m : Mnemonic) : Nat := m.format.length

/-- Why bytes are no instruction. -/
inductive DecodeError where
  /-- The opcode byte is outside the image of `opcode_of` (R54, R65). -/
  | unsupportedOpcode (ir : Byte)
  /-- A byte list that ends before its instruction does; the machine never meets it, since it always fetches three
  bytes (R63). -/
  | endOfBytes
  deriving DecidableEq, Repr

/-- The decode of IR: the instruction whose opcode it matches in all 8 bits, if there is one (R64). -/
def lookupOpcode (om : OpcodeMap) (ir : Byte) : Option Mnemonic :=
  allMnemonics.find? (fun m => decide (om m = ir))

/-- The instruction of a mnemonic over the two prefetched bytes; a byte its format does not use is dropped (R55). -/
def assemble : Mnemonic → Byte → Byte → Instr
  | .hlt, _, _ => .hlt
  | .ldi, a, b => .ldi a b
  | .prn, a, _ => .prn a
  | .mul, a, b => .mul a b
  | .push, a, _ => .push a
  | .pop, a, _ => .pop a
  | .add, a, b => .add a b
  | .call, a, _ => .call a
  | .ret, _, _ => .ret
  | .cmp, a, b => .cmp a b
  | .jmp, a, _ => .jmp a
  | .jeq, a, _ => .jeq a
  | .jne, a, _ => .jne a

/-- Decode of the three fetched bytes (R63 to R65). -/
def decodeWith (om : OpcodeMap) (ir a b : Byte) : Except DecodeError Instr :=
  match lookupOpcode om ir with
  | none => .error (.unsupportedOpcode ir)
  | some m => .ok (assemble m a b)

/-- Decode of the three fetched bytes under the default map. -/
def decode (ir a b : Byte) : Except DecodeError Instr := decodeWith opcodeOf ir a b

/-- Decode of a byte sequence: the instruction at its head, and the bytes after it. The length comes from the opcode
byte alone (R50). -/
def decodeBytes (om : OpcodeMap) : List Byte → Except DecodeError (Instr × List Byte)
  | [] => .error .endOfBytes
  | ir :: rest =>
    match lookupOpcode om ir with
    | none => .error (.unsupportedOpcode ir)
    | some m =>
      if rest.length + 1 < m.length then .error .endOfBytes
      else .ok (assemble m (rest.getD 0 0) (rest.getD 1 0), rest.drop (m.length - 1))

/-- The operand bytes that are part of the instruction, in memory order (R37, R49). -/
def Instr.operandBytes : Instr → List Byte
  | .hlt => []
  | .ldi a b => [a, b]
  | .prn a => [a]
  | .mul a b => [a, b]
  | .push a => [a]
  | .pop a => [a]
  | .add a b => [a, b]
  | .call a => [a]
  | .ret => []
  | .cmp a b => [a, b]
  | .jmp a => [a]
  | .jeq a => [a]
  | .jne a => [a]

/-- The bytes of an instruction: the opcode, then the operand bytes of its format (R49). -/
def encodeWith (om : OpcodeMap) (i : Instr) : List Byte := om i.mnemonic :: i.operandBytes

/-- The bytes of an instruction under the default map. -/
def encode (i : Instr) : List Byte := encodeWith opcodeOf i

/-- Byte `k` of an opcode-table word of `nbits` bits: the first byte is bits 7:0, the second bits 15:8, and so on;
every bit above `nbits` is 0. -/
def tableByte (nbits w k : Nat) : Byte := BitVec.ofNat 8 (w % 2 ^ nbits / 2 ^ (8 * k))

/-- The instruction the decoder reads from a word numbered as spec/opcode_table.json numbers it. -/
def decodeTableWord (nbits w : Nat) : Option Instr :=
  match decode (tableByte nbits w 0) (tableByte nbits w 1) (tableByte nbits w 2) with
  | .ok i => some i
  | .error _ => none

end Sys2Proof
end

