-- ==== Sys2Proof/Machine/State.lean ====
section
/-! DEFINITION. All the state the spec gives the machine (10_state.md R15 to R32, 40_fetch_decode_execute.md R63), the
reset state (70_reset_and_hazards.md R108), and the reasons a step can stop. -/

namespace Sys2Proof.Machine

/-- The faults of the core with the info each records (60_exceptions.md R95). `pc` is the address of the faulting
instruction's opcode. A fault is recorded in the status of a next state (R94); log entry 6. -/
inductive CoreFault where
  /-- IR is the opcode of no instruction (R65). -/
  | unsupportedOpcode (pc : Nat) (ir : Byte)
  /-- A field used as a register index holds 8..255 (R66). -/
  | badRegister (pc : Nat) (ir : Byte) (field : RegField) (value : Byte)
  /-- `pc` > 253, so a fetch address lies outside 0..255 (R62). -/
  | fetchOutOfRange (pc : Nat)
  /-- A push with `sp` = 0 (R80). -/
  | stackOverflow (pc : Nat) (sp : Byte)
  /-- A pop with `sp` = 255 (R80). -/
  | stackUnderflow (pc : Nat) (sp : Byte)
  /-- The ALU called with an operation other than ADD, MUL or CMP; never happens (R74). -/
  | aluUnsupported (pc : Nat) (ir : Byte)
  deriving DecidableEq, Repr

/-- The code of a fault (R95). -/
def CoreFault.code : CoreFault → Nat
  | .unsupportedOpcode _ _ => 1
  | .badRegister _ _ _ _ => 2
  | .fetchOutOfRange _ => 3
  | .stackOverflow _ _ => 4
  | .stackUnderflow _ _ => 5
  | .aluUnsupported _ _ => 6

/-- The `pc` a fault records (R95). -/
def CoreFault.pc : CoreFault → Nat
  | .unsupportedOpcode pc _ => pc
  | .badRegister pc _ _ _ => pc
  | .fetchOutOfRange pc => pc
  | .stackOverflow pc _ => pc
  | .stackUnderflow pc _ => pc
  | .aluUnsupported pc _ => pc

/-- The run status (R27). -/
inductive Status where
  /-- Instructions execute. -/
  | running
  /-- Set by HLT: the only clean end. -/
  | halted
  /-- Set by a fault: terminal, not a clean end. -/
  | faulted (f : CoreFault)
  deriving DecidableEq, Repr

/-- Memory as the list of its nonzero cells (address, byte), addresses rising. -/
abbrev Memory := List Host.Cell

/-- The canonical form: addresses strictly rising, all of them in 0..255 (20_memory.md R34), and no cell listed that
holds 0, which is what an unlisted address reads as (10_state.md R29). Log entry 10. -/
abbrev Memory.wf (m : Memory) : Prop :=
  m.Pairwise (fun c d => c.1 < d.1) ∧ ∀ c ∈ m, c.1 < 256 ∧ c.2 ≠ 0

/-- The three comparison flags as CMP writes them together (10_state.md R24). -/
structure Flags where
  E : Bool
  L : Bool
  G : Bool
  deriving DecidableEq, Repr

/-- The complete state (10_state.md R32), with the fetch latches of R28. -/
structure State where
  /-- R0 to R7 (R15). -/
  regs : Vector Byte 8
  /-- The program counter, 0..256 (R19). -/
  pc : Nat
  /-- The stack pointer (R22). -/
  sp : Byte
  /-- Equal (R24). -/
  E : Bool
  /-- Less (R24). -/
  L : Bool
  /-- Greater (R24). -/
  G : Bool
  /-- The run status (R27). -/
  status : Status
  /-- IR, the latched opcode byte (R28). -/
  ir : Byte
  /-- The latched operand byte `a` (R28). -/
  opA : Byte
  /-- The latched operand byte `b` (R28). -/
  opB : Byte
  /-- The 256 memory cells (R29). -/
  mem : Memory
  /-- The output list, oldest first (R30). -/
  out : List Byte
  deriving DecidableEq, Repr

/-- Why no step exists. -/
inductive Fault where
  /-- Raised by `step` alone, on a machine that HLT has stopped: "no step exists" (R69). Safe: nothing runs. -/
  | halted
  /-- Raised by `step` alone, on a machine stopped by the fault `f`: "no step exists" (R69). Safe: nothing runs. -/
  | faulted (f : CoreFault)
  deriving DecidableEq, Repr

/-- Why nothing is run at all. -/
inductive Refusal where
  /-- An instruction without a meaning. No arm of `exec` raises it: every instruction has its meaning. Safe. -/
  | notModelled (mnemonic : String)
  /-- Raised by the load port alone: a program of `length` > 256 bytes, whose load the spec refuses (R109, D17). Safe. -/
  | programTooLong (length : Nat)
  /-- Raised by the load port alone: line `line` (from 0) of a program file holds an ill-formed binary literal
  (30_encoding.md R57, 60_exceptions.md R98). Safe. -/
  | illFormedLine (line : Nat)
  deriving DecidableEq, Repr

/-- What a step or a meaning answers. -/
abbrev Result := Host.Outcome State Fault Refusal

/-- The machine right after reset, before the loader runs (70_reset_and_hazards.md R108). The three latches are
"unspecified, never read" there: 0 is a DESIGN CHOICE, log entry 9. -/
def State.reset : State where
  regs := Vector.replicate 8 0
  pc := Config.pcReset
  sp := Config.spReset
  E := false
  L := false
  G := false
  status := .running
  ir := 0
  opA := 0
  opB := 0
  mem := []
  out := []

end Sys2Proof.Machine
end

