-- ==== Sys2Proof/Machine/Ops.lean ====
section
/-! DEFINITION. The named operations over registers, memory, stack, output and status (00_scope.md R11), raising a
fault (60_exceptions.md R94, R96) and the precise commit of a step (40_fetch_decode_execute.md R61). -/

namespace Sys2Proof.Machine

/-! ### Memory: `MemRead` and `MemWrite` (R11, R34) -/

/-- The byte listed under the key `k`, or 0, the reset value of every cell (10_state.md R29). -/
def cellAt : Memory → Nat → Byte
  | [], _ => 0
  | (j, v) :: rest, k => if j = k then v else cellAt rest k

/-- Put `v` under the key `k`, keeping the canonical form: a 0 is never listed. -/
def putCell : Memory → Nat → Byte → Memory
  | [], k, v => if v = 0 then [] else [(k, v)]
  | (j, w) :: rest, k, v =>
    if k < j then (if v = 0 then (j, w) :: rest else (k, v) :: (j, w) :: rest)
    else if k = j then (if v = 0 then rest else (k, v) :: rest)
    else (j, w) :: putCell rest k v

/-- `MemRead(addr, 1)`. -/
def Memory.read (m : Memory) (a : Addr) : Byte := cellAt m a.toNat

/-- `MemWrite(addr, 1, v)`. -/
def Memory.write (m : Memory) (a : Addr) (v : Byte) : Memory := putCell m a.toNat v

/-- Consecutive writes from address `a` upward, in order (the loader's, 70_reset_and_hazards.md R109). -/
def Memory.writeAll (m : Memory) (a : Addr) : List Byte → Memory
  | [] => m
  | v :: vs => Memory.writeAll (m.write a v) (a + 1) vs

/-! ### Registers, program counter, output, status -/

/-- `x[r]` (R11). -/
def State.reg (s : State) (r : Reg) : Byte := s.regs[r]

/-- `x[r] <- v` (R11). -/
def State.setReg (s : State) (r : Reg) (v : Byte) : State := { s with regs := s.regs.set r v }

/-- `pc <- target` (R11). -/
def State.setPc (s : State) (target : Nat) : State := { s with pc := target }

/-- `pc <- pc + n`, not wrapped (10_state.md R19). Log entry 4. -/
def State.advance (s : State) (n : Nat) : State := s.setPc (s.pc + n)

/-- `sp <- v` (R11). -/
def State.setSp (s : State) (v : Byte) : State := { s with sp := v }

/-- Write all three flags. -/
def State.setFlags (s : State) (f : Flags) : State := { s with E := f.E, L := f.L, G := f.G }

/-- A memory write of the core. -/
def State.memWrite (s : State) (a : Addr) (v : Byte) : State := { s with mem := s.mem.write a v }

/-- `emit(v)`: append to the output list (R11, 45_system_io.md R93). -/
def State.emit (s : State) (v : Byte) : State := { s with out := s.out ++ [v] }

/-- `status <- st`. -/
def State.setStatus (s : State) (st : Status) : State := { s with status := st }

/-- Write the three fetch latches (10_state.md R28). -/
def State.latch (s : State) (ir a b : Byte) : State := { s with ir := ir, opA := a, opB := b }

/-! ### Faults -/

/-- The state a fault leaves: the status says Faulted(F, info) and everything else is as it was before the instruction,
`pc` at its opcode (R94, R96). Log entry 6. -/
def State.raise (s : State) (f : CoreFault) : State := s.setStatus (.faulted f)

/-- The outcome of a handler started in `s`: its next state, or, where it raised, `s` with the fault recorded, every
write made before the raise discarded (R11 `raise`). -/
def State.settle (s : State) : Except CoreFault State → Result
  | .ok t => .next t
  | .error f => .next (s.raise f)

/-- A step is indivisible (R61): where the instruction faulted, nothing of the step stays but the status, so that the
latches too are as they were before the fetch. Log entry 9. -/
def State.commit (before : State) : Result → Result
  | .next t =>
    match t.status with
    | .faulted f => .next (before.raise f)
    | .running => .next t
    | .halted => .next t
  | .fault f => .fault f
  | .refused r => .refused r

/-! ### Fetch -/

/-- The largest `pc` whose three fetch addresses all exist (R62). -/
def lastFetchPc : Nat := 253

/-- The byte at `pc + k`, for a `pc` the fetch check let through (R62). -/
def State.byteAtPc (s : State) (k : Nat) : Byte := s.mem.read (BitVec.ofNat 8 (s.pc + k))

/-- Fetch and prefetch: latch the opcode byte and the two bytes after it (R63). -/
def State.fetch (s : State) : State := s.latch (s.byteAtPc 0) (s.byteAtPc 1) (s.byteAtPc 2)

/-! ### Stack (43_stack_call.md R79, R80) -/

/-- Push one byte: pre-decrement `sp`, then write; `sp` = 0 raises StackOverflow. -/
def State.push (s : State) (v : Byte) : Except CoreFault State :=
  if s.sp = 0 then .error (.stackOverflow s.pc s.sp)
  else .ok ((s.setSp (s.sp - 1)).memWrite (s.sp - 1) v)

/-- Pop one byte: read at `sp`, then post-increment; `sp` = 255 raises StackUnderflow. The cell keeps its value. -/
def State.pop (s : State) : Except CoreFault (Byte × State) :=
  if s.sp = 255 then .error (.stackUnderflow s.pc s.sp)
  else .ok (s.mem.read s.sp, s.setSp (s.sp + 1))

end Sys2Proof.Machine
end

