-- ==== Sys2Proof/Machine/Flags.lean ====
section
/-! DEFINITION. The one flag computation of the core: CMP's (42_alu.md R78). ADD and MUL write no flag (10_state.md
R24). -/

namespace Sys2Proof.Machine

/-- Clear all three, then set exactly one: Equal if equal, else Less if `x < y` unsigned, else Greater (R78). -/
def compareFlags (x y : Byte) : Flags :=
  if x = y then ⟨true, false, false⟩
  else if x.toNat < y.toNat then ⟨false, true, false⟩
  else ⟨false, false, true⟩

end Sys2Proof.Machine
end

