-- ==== Sys2Proof/Machine/Operands.lean ====
section
/-! DEFINITION. The operand forms (30_encoding.md R51): a register index with its check (40_fetch_decode_execute.md
R66), and an immediate, which is its byte unchanged and needs no operation. -/

namespace Sys2Proof.Machine

/-- The register index in an operand byte: the whole byte, 0..7; 8..255 raises BadRegister and no bits are masked off.
The opcode the fault records is the latched IR. Log entries 2 and 17. -/
def State.regOperand (s : State) (field : RegField) (v : Byte) : Except CoreFault Reg :=
  if h : v.toNat < 8 then .ok ⟨v.toNat, h⟩ else .error (.badRegister s.pc s.ir field v)

end Sys2Proof.Machine
end

