-- ==== Sys2Proof/Machine/Alu.lean ====
section
/-! DEFINITION. The ALU and its three instructions ADD, MUL, CMP (42_alu.md). -/

namespace Sys2Proof.Machine

/-- The low 8 bits of the exact sum (R75, R76). -/
def addWrap (x y : Byte) : Byte := BitVec.ofNat 8 (x.toNat + y.toNat)

/-- The low 8 bits of the exact product (R75, R77). -/
def mulWrap (x y : Byte) : Byte := BitVec.ofNat 8 (x.toNat * y.toNat)

/-- The ALU sub-operation (R73): a function of the operation and two register indices that writes `x[ra]` (ADD, MUL) or
the flags (CMP) and nothing else. Any other operation raises AluUnsupported (R74). Log entry 16. -/
def State.alu (op : Mnemonic) (ra rb : Reg) (s : State) : Except CoreFault State :=
  match op with
  | .add => .ok (s.setReg ra (addWrap (s.reg ra) (s.reg rb)))
  | .mul => .ok (s.setReg ra (mulWrap (s.reg ra) (s.reg rb)))
  | .cmp => .ok (s.setFlags (compareFlags (s.reg ra) (s.reg rb)))
  | .hlt | .ldi | .prn | .push | .pop | .call | .ret | .jmp | .jeq | .jne => .error (.aluUnsupported s.pc s.ir)

/-- ADD (R76): `x[a] <- (x[a] + x[b]) mod 256; pc <- pc + 3`. -/
def execAdd (a b : Byte) (s : State) : Result :=
  s.settle do
    let ra ← s.regOperand .a a
    let rb ← s.regOperand .b b
    let t ← s.alu .add ra rb
    return t.advance 3

/-- MUL (R77): `x[a] <- (x[a] * x[b]) mod 256; pc <- pc + 3`. -/
def execMul (a b : Byte) (s : State) : Result :=
  s.settle do
    let ra ← s.regOperand .a a
    let rb ← s.regOperand .b b
    let t ← s.alu .mul ra rb
    return t.advance 3

/-- CMP (R78): exactly one of E, L, G from `x[a]` and `x[b]`; `pc <- pc + 3`. -/
def execCmp (a b : Byte) (s : State) : Result :=
  s.settle do
    let ra ← s.regOperand .a a
    let rb ← s.regOperand .b b
    let t ← s.alu .cmp ra rb
    return t.advance 3

end Sys2Proof.Machine
end

