-- ==== Sys2Proof/Machine/Branch.lean ====
section
/-! DEFINITION. Jumps and conditional branches: JMP, JEQ, JNE (44_branch.md). A target is the value of `x[a]`, absolute,
any of 0..255 (R87). -/

namespace Sys2Proof.Machine

/-- JMP (R88): `pc <- x[a]`. -/
def execJmp (a : Byte) (s : State) : Result :=
  s.settle do
    let ra ← s.regOperand .a a
    return s.setPc (s.reg ra).toNat

/-- JEQ (R89): `pc <- x[a]` if E, else `pc <- pc + 2`. The register field is checked either way (R66). -/
def execJeq (a : Byte) (s : State) : Result :=
  s.settle do
    let ra ← s.regOperand .a a
    return if s.E then s.setPc (s.reg ra).toNat else s.advance 2

/-- JNE (R90): `pc <- x[a]` if not E, else `pc <- pc + 2`. The register field is checked either way (R66). -/
def execJne (a : Byte) (s : State) : Result :=
  s.settle do
    let ra ← s.regOperand .a a
    return if s.E then s.advance 2 else s.setPc (s.reg ra).toNat

end Sys2Proof.Machine
end

