-- ==== Sys2Proof/Machine/DataMove.lean ====
section
/-! DEFINITION. Data move: LDI (41_data_move.md). -/

namespace Sys2Proof.Machine

/-- LDI (R72): `x[a] <- b; pc <- pc + 3`. -/
def execLdi (a b : Byte) (s : State) : Result :=
  s.settle do
    let ra ← s.regOperand .a a
    return (s.setReg ra b).advance 3

end Sys2Proof.Machine
end

