-- ==== Sys2Proof/Machine/StackCall.lean ====
section
/-! DEFINITION. Stack and call/return: PUSH, POP, CALL, RET (43_stack_call.md). -/

namespace Sys2Proof.Machine

/-- PUSH (R81): push `x[a]`; `pc <- pc + 2`. -/
def execPush (a : Byte) (s : State) : Result :=
  s.settle do
    let ra ← s.regOperand .a a
    let t ← s.push (s.reg ra)
    return t.advance 2

/-- POP (R82): pop into `x[a]`; `pc <- pc + 2`. -/
def execPop (a : Byte) (s : State) : Result :=
  s.settle do
    let ra ← s.regOperand .a a
    let (v, t) ← s.pop
    return (t.setReg ra v).advance 2

/-- The address of the byte after a 2-byte CALL, as the stack cell holds it. It is at most 255 wherever a CALL can be
fetched, so nothing is cut off (R83). -/
def State.returnAddress (s : State) : Byte := BitVec.ofNat 8 (s.pc + 2)

/-- CALL (R83): push `pc + 2`; `pc <- x[a]`, read before the push. -/
def execCall (a : Byte) (s : State) : Result :=
  s.settle do
    let ra ← s.regOperand .a a
    let t ← s.push s.returnAddress
    return t.setPc (s.reg ra).toNat

/-- RET (R84): pop into `pc`. -/
def execRet (s : State) : Result :=
  s.settle do
    let (v, t) ← s.pop
    return t.setPc v.toNat

end Sys2Proof.Machine
end

