-- ==== Sys2Proof/Machine/SystemIo.lean ====
section
/-! DEFINITION. Halt and output: HLT, PRN (45_system_io.md). -/

namespace Sys2Proof.Machine

/-- HLT (R91): `status <- Halted; pc <- pc + 1`. -/
def execHlt (s : State) : Result :=
  s.settle (.ok ((s.setStatus .halted).advance 1))

/-- PRN (R92): `emit(x[a]); pc <- pc + 2`. -/
def execPrn (a : Byte) (s : State) : Result :=
  s.settle do
    let ra ← s.regOperand .a a
    return (s.emit (s.reg ra)).advance 2

end Sys2Proof.Machine
end

