-- ==== Sys2Proof/Machine/Cycle.lean ====
section
/-! DEFINITION. One fetch-decode-execute cycle over any opcode map (40_fetch_decode_execute.md R60 to R67). -/

namespace Sys2Proof.Machine

/-- The stages of R60 in order. Stage 1 checks the fetch window (R62), stage 2 latches (R63), stage 3 decodes (R64, R65);
stages 4 and 5, the register check and the handler, are `exec`. A machine that is not Running has no step (R69); log
entry 7. -/
def cycle (om : OpcodeMap) (s : State) : Result :=
  match s.status with
  | .halted => .fault .halted
  | .faulted f => .fault (.faulted f)
  | .running =>
    if lastFetchPc < s.pc then .next (s.raise (.fetchOutOfRange s.pc))
    else
      match decodeWith om s.fetch.ir s.fetch.opA s.fetch.opB with
      | .error _ => .next (s.raise (.unsupportedOpcode s.pc s.fetch.ir))
      | .ok i => s.commit (exec i s.fetch)

/-- Store three bytes where the next cycle fetches. -/
def State.putAtPc (s : State) (b0 b1 b2 : Byte) : State :=
  { s with mem := s.mem.writeAll (BitVec.ofNat 8 s.pc) [b0, b1, b2] }

/-- The state made ready to fetch: Running, and `pc` where three bytes fit (0, the entry point, if it is past 253). At
reset it changes nothing. Log entry 11. -/
def State.readyToFetch (s : State) : State :=
  { s with status := .running, pc := if lastFetchPc < s.pc then Config.pcReset else s.pc }

end Sys2Proof.Machine
end

