-- ==== Sys2Proof/Machine/Step.lean ====
section
/-! DEFINITION. The step of the machine under the default opcode map, and a word placed where it is fetched. -/

namespace Sys2Proof.Machine

/-- One step: one whole instruction (40_fetch_decode_execute.md R60, R71). -/
def step (s : State) : Host.Outcome State Fault Refusal := cycle opcodeOf s

/-- `s` with the opcode-table word `w` of `nbits` bits stored as the next instruction to fetch; the bits above `nbits`, up
to three bytes, are 0. Log entry 11. -/
def State.withFetchWord (s : State) (nbits w : Nat) : State :=
  s.readyToFetch.putAtPc (tableByte nbits w 0) (tableByte nbits w 1) (tableByte nbits w 2)

end Sys2Proof.Machine
end

