-- ==== Sys2Proof/Machine/Ports.lean ====
section
/-! DEFINITION. The interfaces at the core's boundary (10_state.md R33): load, run and single step, output, status,
trace. The single step is `step` itself (40_fetch_decode_execute.md R71). -/

namespace Sys2Proof.Machine

/-! ### Load port (70_reset_and_hazards.md R109, R110) -/

/-- Reset, then load: program byte `i` is written to address `i`, before the first step; the rest of memory keeps its
reset value. A program of more than 256 bytes is refused (92_eei_decisions.md D17). Log entries 11 and 12. -/
def State.boot (program : List Byte) : Result :=
  if Config.memSize < program.length then .refused (.programTooLong program.length)
  else .next { State.reset with mem := State.reset.mem.writeAll 0 program }

/-- The token of a line that starts with a binary digit: the characters before a `#`, without white space at the end
(30_encoding.md R57). -/
def lineToken (line : List Char) : List Char :=
  (line.takeWhile (fun c => c != '#')).rdropWhile (fun c => c.isWhitespace)

/-- An 8-bit binary literal as a byte, most significant bit first; anything else is ill formed. Log entry 12. -/
def binaryLiteral (token : List Char) : Option Byte :=
  if token.length = 8 ∧ token.all (fun c => c == '0' || c == '1') then
    some (BitVec.ofNat 8 (token.foldl (fun n c => 2 * n + (if c == '1' then 1 else 0)) 0))
  else none

/-- Does a line hold a literal, or is it skipped? (R57 (a) and (b)) -/
def lineHoldsByte : List Char → Bool
  | [] => false
  | c :: _ => c == '0' || c == '1'

/-- The bytes of a program file, line by line, counting lines from `n`; `error k` where line `k` is ill formed. -/
def parseLines (n : Nat) : List (List Char) → Except Nat (List Byte)
  | [] => .ok []
  | line :: rest =>
    if lineHoldsByte line then
      match binaryLiteral (lineToken line), parseLines (n + 1) rest with
      | none, _ => .error n
      | some _, .error k => .error k
      | some v, .ok vs => .ok (v :: vs)
    else parseLines (n + 1) rest

/-- Boot from the text form of a program. An ill-formed literal is fatal: nothing is loaded and no instruction executes
(60_exceptions.md R98). -/
def State.bootFile (lines : List (List Char)) : Result :=
  match parseLines 0 lines with
  | .error k => .refused (.illFormedLine k)
  | .ok program => State.boot program

/-! ### Run control (40_fetch_decode_execute.md R68 to R71) -/

/-- `run()` cut off after `fuel` steps: step while the status is Running. The core has no cut-off of its own, so a run
that is still Running at every `fuel` is a hang (R68). Log entry 20. -/
def State.run (om : OpcodeMap) : Nat → State → Result
  | 0, s => .next s
  | fuel + 1, s =>
    match s.status with
    | .halted => .next s
    | .faulted _ => .next s
    | .running =>
      match cycle om s with
      | .next t => State.run om fuel t
      | .fault f => .fault f
      | .refused r => .refused r

/-! ### Output port, status, trace -/

/-- The text lines the console sink prints: the decimal value of each event, one line each (45_system_io.md R93). -/
def State.consoleLines (s : State) : List String := s.out.map (fun v => Nat.repr v.toNat)

/-- `running` of the source: status = Running (10_state.md R27). -/
def State.running (s : State) : Bool := decide (s.status = .running)

/-- The host process's exit status once the run has ended: 0 after HLT, the open parameter after a fault
(45_system_io.md R91, 60_exceptions.md R98). None while the core runs. -/
def State.exitStatus (s : State) : Option Nat :=
  match s.status with
  | .running => none
  | .halted => some 0
  | .faulted _ => some Config.faultExitStatus

/-- The host process's exit status when the program file cannot be opened (60_exceptions.md R98). -/
def openFailureExitStatus : Nat := 1

/-- What one trace line carries (10_state.md R33, 60_exceptions.md R106). Log entry 14. -/
structure TraceLine where
  pc : Nat
  ir : Byte
  a : Byte
  b : Byte
  regs : Vector Byte 8
  deriving DecidableEq, Repr

/-- The trace line of the next instruction, given before it runs (R33): a Running core, three bytes that can be fetched,
and an opcode byte that is an instruction. A Halted or Faulted core executes nothing and gives no line, nor does a fetch
that finds no instruction. It changes no state. Log entry 14. -/
def State.traceLine (om : OpcodeMap) (s : State) : Option TraceLine :=
  match s.status with
  | .halted => none
  | .faulted _ => none
  | .running =>
    if lastFetchPc < s.pc then none
    else (lookupOpcode om (s.byteAtPc 0)).map
      (fun _ => ⟨s.pc, s.byteAtPc 0, s.byteAtPc 1, s.byteAtPc 2, s.regs⟩)

/-- The trace of a run, oldest line first: one line for each instruction of the first `fuel` steps (R106). It is read
beside `State.run`, which it does not enter. -/
def State.traceRun (om : OpcodeMap) : Nat → State → List TraceLine
  | 0, _ => []
  | fuel + 1, s =>
    match cycle om s with
    | .next t => (s.traceLine om).toList ++ State.traceRun om fuel t
    | .fault _ => []
    | .refused _ => []

end Sys2Proof.Machine
end

