-- ==== Sys2Proof/Safety.lean ====
section
/-! DEFINITION. The terms claims are made in: runs, how they end, what a step leaves unchanged, what a recorded fault
asserts, and the invariant of the machine. -/

namespace Sys2Proof.Machine

/-! ### Runs -/

/-- `t` is reached from `s` by steps, each taken in a state where `P` holds. -/
inductive StepsWhere (om : OpcodeMap) (P : State → Prop) : State → State → Prop where
  | refl (s : State) : StepsWhere om P s s
  | tail {s t u : State} : StepsWhere om P s t → P t → cycle om t = .next u → StepsWhere om P s u

/-- `t` is reached from `s` by steps. -/
def Reaches (om : OpcodeMap) : State → State → Prop := StepsWhere om (fun _ => True)

/-- The only clean end of a run (10_state.md R27, 40_fetch_decode_execute.md R69). -/
def State.CleanEnd (s : State) : Prop := s.status = .halted

/-- The run was stopped by a fault: terminal, not a clean end (R69). -/
def State.Crashed (s : State) : Prop := ∃ f : CoreFault, s.status = .faulted f

/-- A safe run from `s`: no state it reaches has crashed. -/
def SafeFrom (om : OpcodeMap) (s : State) : Prop := ∀ t, Reaches om s t → ¬ t.Crashed

/-- A hang: every state reached is still Running (R68). -/
def Hangs (om : OpcodeMap) (s : State) : Prop := ∀ t, Reaches om s t → t.status = .running

/-- The PUSH instructions of the registers `as`, one after the other. -/
def pushEach : List Byte → State → Result
  | [], s => .next s
  | a :: as, s =>
    match exec (.push a) s with
    | .next t => pushEach as t
    | .fault f => .fault f
    | .refused r => .refused r

/-! ### What the fetch at the program counter finds -/

/-- A step exists and its fetch window lies inside memory (R60, R62). -/
def State.CanFetch (s : State) : Prop := s.status = .running ∧ s.pc ≤ lastFetchPc

/-- The instruction name of the opcode byte at `pc`. -/
def State.fetchedMnemonic (om : OpcodeMap) (s : State) : Option Mnemonic := lookupOpcode om (s.byteAtPc 0)

/-- The instruction of the three bytes at `pc`. -/
def State.fetchedInstr (om : OpcodeMap) (s : State) : Except DecodeError Instr :=
  decodeWith om (s.byteAtPc 0) (s.byteAtPc 1) (s.byteAtPc 2)

/-! ### What a step leaves unchanged -/

/-- Every general register outside `ex` holds what it held. -/
def SameRegs (s t : State) (ex : List Reg) : Prop := ∀ q : Reg, q ∉ ex → t.reg q = s.reg q

/-- The three flags are unchanged. -/
def SameFlags (s t : State) : Prop := t.E = s.E ∧ t.L = s.L ∧ t.G = s.G

/-- The fetch latches are unchanged. -/
def SameLatches (s t : State) : Prop := t.ir = s.ir ∧ t.opA = s.opA ∧ t.opB = s.opB

/-- Every byte of memory outside `ex` reads as before. -/
def SameMem (s t : State) (ex : List Addr) : Prop := ∀ a : Addr, a ∉ ex → t.mem.read a = s.mem.read a

/-- Everything but the program counter, the general registers and memory is unchanged: `sp`, the flags, the status, the
latches and the output. -/
def SameRest (s t : State) : Prop :=
  t.sp = s.sp ∧ SameFlags s t ∧ t.status = s.status ∧ SameLatches s t ∧ t.out = s.out

/-- No fault is recorded. -/
def State.Unfaulted (s : State) : Prop := ∀ f : CoreFault, s.status ≠ .faulted f

/-! ### Registers an instruction reads and writes (10_state.md R16) -/

/-- The operand bytes whose registers the instruction reads; for JEQ and JNE only when the branch is taken. -/
def readFields (i : Instr) (E : Bool) : List Byte :=
  match i with
  | .hlt => []
  | .ldi _ _ => []
  | .prn a => [a]
  | .mul a b => [a, b]
  | .push a => [a]
  | .pop _ => []
  | .add a b => [a, b]
  | .call a => [a]
  | .ret => []
  | .cmp a b => [a, b]
  | .jmp a => [a]
  | .jeq a => if E then [a] else []
  | .jne a => if E then [] else [a]

/-- The operand bytes whose registers the instruction writes. -/
def writeFields : Instr → List Byte
  | .hlt => []
  | .ldi a _ => [a]
  | .prn _ => []
  | .mul a _ => [a]
  | .push _ => []
  | .pop a => [a]
  | .add a _ => [a]
  | .call _ => []
  | .ret => []
  | .cmp _ _ => []
  | .jmp _ => []
  | .jeq _ => []
  | .jne _ => []

/-! ### The invariant -/

/-- What a recorded fault asserts about the state it left (60_exceptions.md R95, R96): `pc` is the faulting
instruction's address, the recorded values are those of the state, and the cause holds there. -/
def State.FaultHolds (om : OpcodeMap) (s : State) : CoreFault → Prop
  | .unsupportedOpcode pc ir => pc = s.pc ∧ s.pc ≤ lastFetchPc ∧ ir = s.byteAtPc 0 ∧ lookupOpcode om ir = none
  | .badRegister pc ir field value =>
    pc = s.pc ∧ s.pc ≤ lastFetchPc ∧ ir = s.byteAtPc 0 ∧
      ∃ i : Instr, s.fetchedInstr om = .ok i ∧ i.firstBadField = some (field, value)
  | .fetchOutOfRange pc => pc = s.pc ∧ lastFetchPc < s.pc
  | .stackOverflow pc sp =>
    pc = s.pc ∧ s.pc ≤ lastFetchPc ∧ sp = s.sp ∧ s.sp = 0 ∧
      (s.fetchedMnemonic om = some .push ∨ s.fetchedMnemonic om = some .call)
  | .stackUnderflow pc sp =>
    pc = s.pc ∧ s.pc ≤ lastFetchPc ∧ sp = s.sp ∧ s.sp = 255 ∧
      (s.fetchedMnemonic om = some .pop ∨ s.fetchedMnemonic om = some .ret)
  | .aluUnsupported _ _ => False

/-- What the status asserts: a Halted core stands just past an HLT (45_system_io.md R91), a Faulted one where its fault
says. -/
def State.StatusHolds (om : OpcodeMap) (s : State) : Prop :=
  match s.status with
  | .running => True
  | .halted => 1 ≤ s.pc ∧ s.pc ≤ lastFetchPc + 1 ∧ s.mem.read (BitVec.ofNat 8 (s.pc - 1)) = om .hlt
  | .faulted f => s.FaultHolds om f

/-- The invariant of the machine: memory is canonical, `pc` lies in 0..256 (10_state.md R19), at most one flag is true
(R25), and the status tells the truth. -/
structure State.Inv (om : OpcodeMap) (s : State) : Prop where
  mem_wf : s.mem.wf
  pc_le : s.pc ≤ 256
  flags_le_one : ¬ (s.E ∧ s.L) ∧ ¬ (s.E ∧ s.G) ∧ ¬ (s.L ∧ s.G)
  status_holds : s.StatusHolds om

end Sys2Proof.Machine
end

