-- ==== Sys2Proof/Certificates/Slice0/Obligations.lean ====
section
/-! DEFINITION. The statements for the provers. Every one quantifies over all states of the type it names; a premise on
the state is either the condition the spec gives or a part of the invariant `State.Inv`, which is stated of every step
below. -/

open Sys2Proof Sys2Proof.Machine

/-! ### Reset and loading -/

/-- R17, R21, R23: what reset leaves, that a register no instruction has written still reads 0, and that the first push
stores at 243. (Flags, status, memory and output at reset: R26, R27, R29, R30.) -/
def Obligations.ResetLeavesTheSpecifiedState : Prop :=
  ((∀ r : Reg, State.reset.reg r = 0) ∧ State.reset.pc = 0 ∧ State.reset.sp = 244 ∧
    State.reset.E = false ∧ State.reset.L = false ∧ State.reset.G = false ∧
    State.reset.status = .running ∧ (∀ a : Addr, State.reset.mem.read a = 0) ∧ State.reset.out = []) ∧
  (∀ (om : OpcodeMap) (r : Reg) (program : List Byte) (s t : State), State.boot program = .next s →
    StepsWhere om (fun u => ∀ i, u.fetchedInstr om = .ok i → ∀ b ∈ writeFields i, b.toNat ≠ r) s t →
    t.reg r = 0) ∧
  (∀ (a : Byte) (ha : a.toNat < 8) (s : State), s.mem.wf → s.sp = State.reset.sp →
    ∃ t, exec (.push a) s = .next t ∧ t.sp = 243 ∧ t.mem.read 243 = s.reg ⟨a.toNat, ha⟩ ∧
      t.mem.read 244 = s.mem.read 244)

/-- R109 (with the spec's decision D17): booting a program of at most 256 bytes gives the reset state with byte `i` at
address `i` and 0 above; a longer one is refused. -/
def Obligations.BootPlacesTheProgramAtZero : Prop :=
  ∀ program : List Byte,
    (program.length ≤ 256 → ∃ t, State.boot program = .next t ∧ t = { State.reset with mem := t.mem } ∧
      (∀ (i : Nat) (h : i < program.length), t.mem.read (BitVec.ofNat 8 i) = program[i]) ∧
      (∀ i : Nat, program.length ≤ i → i < 256 → t.mem.read (BitVec.ofNat 8 i) = 0)) ∧
    (256 < program.length → State.boot program = .refused (.programTooLong program.length))

/-- The invariant holds at reset and after every load, whatever the opcode map. -/
def Obligations.ResetAndBootMeetTheInvariant : Prop :=
  ∀ om : OpcodeMap, State.reset.Inv om ∧
    ∀ (program : List Byte) (t : State), State.boot program = .next t → t.Inv om

/-! ### Whole-machine claims -/

/-- Every step keeps the invariant: canonical memory, `pc` in 0..256, at most one flag true, and a status that tells the
truth about how the run ended (10_state.md R19, R25; 45_system_io.md R91; 60_exceptions.md R95, R96). -/
def Obligations.EveryStepKeepsTheInvariant : Prop :=
  (∀ (om : OpcodeMap) (s t : State), s.Inv om → cycle om s = .next t → t.Inv om) ∧
  (∀ s t : State, s.Inv opcodeOf → step s = .next t → t.Inv opcodeOf)

/-- Every run of every loaded program, of any length and over any opcode map, answers a state that meets the invariant,
and once that state is not Running no more fuel changes it (40_fetch_decode_execute.md section 5; the fuel is the model's,
log entry 20). -/
def Obligations.EveryLoadedRunEndsTruthfullyOrGoesOn : Prop :=
  ∀ (om : OpcodeMap) (program : List Byte) (s : State) (fuel : Nat), State.boot program = .next s →
    ∃ t, State.run om fuel s = .next t ∧ t.Inv om ∧
      (t.status ≠ .running → ∀ more : Nat, State.run om (fuel + more) s = .next t)

/-- A Running core always answers a next state, and never one that records AluUnsupported (R60, R74). -/
def Obligations.RunningCoreAlwaysSteps : Prop :=
  ∀ (om : OpcodeMap) (s : State), s.status = .running →
    ∃ t, cycle om s = .next t ∧ ∀ pc ir, t.status ≠ .faulted (.aluUnsupported pc ir)

/-- R61, R96 (the spec's decision D7): a step that faults changes nothing but the status, and what the status records is
true of that state. -/
def Obligations.FaultsArePrecise : Prop :=
  ∀ (om : OpcodeMap) (s t : State) (f : CoreFault), cycle om s = .next t → t.status = .faulted f →
    t = { s with status := .faulted f } ∧ t.FaultHolds om f

/-- R107: HLT leaves the core Halted, and a Halted core has no next state and stays as it is. -/
def Obligations.HaltedCoreStaysHalted : Prop :=
  (∀ s : State, ∃ t, exec .hlt s = .next t ∧ t.status = .halted) ∧
  (∀ (om : OpcodeMap) (s : State), s.status = .halted →
    (∀ t, cycle om s ≠ .next t) ∧ ∀ t, Reaches om s t → t = s)

/-- R69 (the spec's decisions D7 and D21; the name of the stop is the model's, log entry 7): a Faulted core stops where
it is, and so does a Halted one. -/
def Obligations.NoStepExistsAfterTheEnd : Prop :=
  ∀ (om : OpcodeMap) (s : State),
    (s.status = .halted → cycle om s = .fault .halted) ∧
    (∀ f, s.status = .faulted f → cycle om s = .fault (.faulted f) ∧ ∀ t, Reaches om s t → t = s)

/-- Only HLT ends a run cleanly (10_state.md R27). -/
def Obligations.OnlyHltEndsCleanly : Prop :=
  ∀ (om : OpcodeMap) (s t : State), cycle om s = .next t →
    (t.CleanEnd ↔ s.pc ≤ 253 ∧ s.fetchedMnemonic om = some .hlt)

/-- A completed instruction that is not a control transfer advances `pc` by its length, without wrapping; a control
transfer puts `pc` in 0..255 (R18, R19, R67). -/
def Obligations.ProgramCounterMovesByLengthOrTransfer : Prop :=
  ∀ (om : OpcodeMap) (s t : State), cycle om s = .next t → t.Unfaulted →
    ∃ m, s.fetchedMnemonic om = some m ∧
      (m ∉ [Mnemonic.jmp, .jeq, .jne, .call, .ret] → t.pc = s.pc + m.length) ∧
      (m ∈ [Mnemonic.jmp, .jeq, .jne, .call, .ret] → t.pc < 256)

/-- A completed PUSH or CALL lowers `sp` by one, a completed POP or RET raises it by one, and nothing else moves it;
it never wraps (R22, R79). -/
def Obligations.StackPointerMovesByOne : Prop :=
  ∀ (om : OpcodeMap) (s t : State), cycle om s = .next t → t.Unfaulted →
    ∃ m, s.fetchedMnemonic om = some m ∧
      (m ∈ [Mnemonic.push, .call] → t.sp.toNat + 1 = s.sp.toNat) ∧
      (m ∈ [Mnemonic.pop, .ret] → t.sp.toNat = s.sp.toNat + 1) ∧
      (m ∉ [Mnemonic.push, .call, .pop, .ret] → t.sp = s.sp)

/-- A byte of memory changes only under a PUSH or CALL, and only the byte just below the old `sp` (R35). -/
def Obligations.MemoryChangesOnlyJustBelowTheStackPointer : Prop :=
  ∀ (om : OpcodeMap) (s t : State) (a : Addr), cycle om s = .next t → t.mem.read a ≠ s.mem.read a →
    (s.fetchedMnemonic om = some .push ∨ s.fetchedMnemonic om = some .call) ∧ s.sp ≠ 0 ∧ a = s.sp - 1

/-- Output already produced never changes along a run, and one step adds at most one value, under PRN only (R30, R93). -/
def Obligations.OutputOnlyGrows : Prop :=
  (∀ (om : OpcodeMap) (s t : State), Reaches om s t → s.out <+: t.out) ∧
  (∀ (om : OpcodeMap) (s t : State), cycle om s = .next t →
    t.out = s.out ∨
      (s.fetchedMnemonic om = some .prn ∧ ∃ h : (s.byteAtPc 1).toNat < 8, t.out = s.out ++ [s.reg ⟨_, h⟩]))

/-- R32: the reset value and the writers of each field of the state. -/
def Obligations.EachFieldHasItsResetValueAndWriters : Prop :=
  ((∀ a : Addr, State.reset.mem.read a = 0) ∧ (∀ r : Reg, State.reset.reg r = 0) ∧ State.reset.pc = 0 ∧
    State.reset.sp = 244 ∧ State.reset.E = false ∧ State.reset.L = false ∧ State.reset.G = false ∧
    State.reset.status = .running ∧ State.reset.out = [] ∧
    ∀ (program : List Byte) (t : State), State.boot program = .next t → t = { State.reset with mem := t.mem } ∧
      ∀ (i : Nat) (h : i < program.length), t.mem.read (BitVec.ofNat 8 i) = program[i]) ∧
  (∀ (om : OpcodeMap) (s t : State), cycle om s = .next t → s.Inv om → t.pc ≤ 256) ∧
  (∀ (om : OpcodeMap) (s t : State), cycle om s = .next t →
    (t.mem ≠ s.mem → s.fetchedMnemonic om ∈ [some Mnemonic.push, some .call]) ∧
    (t.regs ≠ s.regs → s.fetchedMnemonic om ∈ [some Mnemonic.ldi, some .add, some .mul, some .pop]) ∧
    (t.sp ≠ s.sp → s.fetchedMnemonic om ∈ [some Mnemonic.push, some .pop, some .call, some .ret]) ∧
    (¬ SameFlags s t → s.fetchedMnemonic om = some .cmp) ∧
    (t.status ≠ s.status → s.fetchedMnemonic om = some .hlt ∨ t.Crashed) ∧
    (t.out ≠ s.out → s.fetchedMnemonic om = some .prn))

/-- A jump to its own address hangs: every state reached is Running, and none has crashed (R68, R88). -/
def Obligations.SelfJumpHangs : Prop :=
  ∀ (om : OpcodeMap) (s : State) (a : Byte) (ha : a.toNat < 8), s.CanFetch → s.fetchedInstr om = .ok (.jmp a) →
    (s.reg ⟨a.toNat, ha⟩).toNat = s.pc → Hangs om s ∧ SafeFrom om s

/-- R71: a run is single steps repeated until the status is not Running, and `step` is one cycle. -/
def Obligations.RunIsSingleStepsRepeated : Prop :=
  (∀ s : State, step s = cycle opcodeOf s) ∧
  (∀ (om : OpcodeMap) (n : Nat) (s : State),
    (s.status ≠ .running → State.run om n s = .next s) ∧
    (s.status = .running → ∃ t, cycle om s = .next t ∧ State.run om (n + 1) s = State.run om n t)) ∧
  (∀ (om : OpcodeMap) (j k : Nat) (s t : State), State.run om j s = .next t →
    Reaches om s t ∧ State.run om (j + k) s = State.run om k t)

/-! ### Encoding and decoding -/

/-- Decode and encode agree, in both directions, for every instruction, every operand byte, every injective opcode map
and whatever follows; and the decoder of the fetched bytes is the decoder of byte sequences (R8, R49, R52, R64). -/
def Obligations.DecodeAndEncodeAgree : Prop :=
  (∀ (om : OpcodeMap) (i : Instr) (rest : List Byte), om.Injective →
    decodeBytes om (encodeWith om i ++ rest) = .ok (i, rest)) ∧
  (∀ (i : Instr) (rest : List Byte), decodeBytes opcodeOf (encode i ++ rest) = .ok (i, rest)) ∧
  (∀ (om : OpcodeMap) (bytes rest : List Byte) (i : Instr), decodeBytes om bytes = .ok (i, rest) →
    bytes = encodeWith om i ++ rest) ∧
  (∀ (om : OpcodeMap) (ir a b : Byte) (i : Instr),
    decodeWith om ir a b = .ok i ↔ ∃ rest, decodeBytes om [ir, a, b] = .ok (i, rest))

/-- One word of each instruction, written out from R49 and R52, decodes to it, and two bytes that are no opcode are
refused (a sanity statement; the default opcode values are the spec's own, D1, log entry 1). -/
def Obligations.WrittenOutWordsDecode : Prop :=
  decode 0b00000001 0xFF 0xFF = .ok .hlt ∧
  decode 0b10000010 0b00000010 0b11111111 = .ok (.ldi 2 255) ∧
  decode 0b01000111 0b00000101 0xFF = .ok (.prn 5) ∧
  decode 0b10100010 0b00000001 0b00000000 = .ok (.mul 1 0) ∧
  decode 0b01000101 0b00000000 0x00 = .ok (.push 0) ∧
  decode 0b01000110 0b00000001 0x00 = .ok (.pop 1) ∧
  decode 0b10100000 0b00000011 0b11111111 = .ok (.add 3 255) ∧
  decode 0b01010000 0b00000001 0x00 = .ok (.call 1) ∧
  decode 0b00010001 0x00 0x00 = .ok .ret ∧
  decode 0b10100111 0b00000010 0b00000111 = .ok (.cmp 2 7) ∧
  decode 0b01010100 0b00000011 0x00 = .ok (.jmp 3) ∧
  decode 0b01010101 0b00000011 0x00 = .ok (.jeq 3) ∧
  decode 0b01010110 0b00000011 0x00 = .ok (.jne 3) ∧
  decode 0b00000000 0 0 = .error (.unsupportedOpcode 0) ∧
  decode 0b10100001 0 1 = .error (.unsupportedOpcode 0xA1)

/-- R64: decode is exact match of all 8 bits against `opcode_of`, and each recognised opcode has exactly one
instruction. -/
def Obligations.OpcodeMatchIsExact : Prop :=
  (∀ (om : OpcodeMap) (ir : Byte) (m : Mnemonic), om.Injective → (lookupOpcode om ir = some m ↔ om m = ir)) ∧
  (∀ (om : OpcodeMap) (ir a b : Byte) (i : Instr), om.Injective → decodeWith om ir a b = .ok i →
    om i.mnemonic = ir ∧ ∀ m, om m = ir → m = i.mnemonic)

/-- R50: the length depends only on the opcode byte, as R52 gives it; a byte outside the map has no length, and the core
faults on it. -/
def Obligations.LengthComesFromTheOpcodeAlone : Prop :=
  (∀ (om : OpcodeMap) (ir : Byte) (m : Mnemonic), lookupOpcode om ir = some m →
    ∀ bytes rest i, decodeBytes om (ir :: bytes) = .ok (i, rest) → bytes.length + 1 = rest.length + m.length) ∧
  (Mnemonic.length .hlt = 1 ∧ Mnemonic.length .ldi = 3 ∧ Mnemonic.length .prn = 2 ∧ Mnemonic.length .mul = 3 ∧
    Mnemonic.length .push = 2 ∧ Mnemonic.length .pop = 2 ∧ Mnemonic.length .add = 3 ∧ Mnemonic.length .call = 2 ∧
    Mnemonic.length .ret = 1 ∧ Mnemonic.length .cmp = 3 ∧ Mnemonic.length .jmp = 2 ∧ Mnemonic.length .jeq = 2 ∧
    Mnemonic.length .jne = 2) ∧
  (∀ (om : OpcodeMap) (ir : Byte), lookupOpcode om ir = none →
    (∀ bytes, decodeBytes om (ir :: bytes) = .error (.unsupportedOpcode ir)) ∧
    ∀ s : State, s.CanFetch → s.byteAtPc 0 = ir → ∃ t, cycle om s = .next t ∧
      t.status = .faulted (.unsupportedOpcode s.pc ir))

/-- R55 (the spec's decision D14): the bytes a format does not use have no effect. -/
def Obligations.UnusedOperandBytesAreIgnored : Prop :=
  ∀ (om : OpcodeMap) (ir : Byte) (m : Mnemonic), lookupOpcode om ir = some m →
    (m.format = .Z → ∀ a b a' b', decodeWith om ir a b = decodeWith om ir a' b') ∧
    (m.format = .R → ∀ a b b', decodeWith om ir a b = decodeWith om ir a b')

/-! ### Fetch, decode, faults -/

/-- R63, and the link from instructions to runs: when the three bytes at `pc` decode to `i`, the step is `exec i` on the
state with the three bytes latched; an instruction that completes keeps the latches, one that faults leaves the state
before the fetch with its status. -/
def Obligations.StepRunsTheFetchedInstruction : Prop :=
  (∀ (om : OpcodeMap) (s : State) (i : Instr), s.CanFetch →
    decodeWith om (s.mem.read (BitVec.ofNat 8 s.pc)) (s.mem.read (BitVec.ofNat 8 (s.pc + 1)))
      (s.mem.read (BitVec.ofNat 8 (s.pc + 2))) = .ok i →
    ∃ t, exec i (s.latch (s.mem.read (BitVec.ofNat 8 s.pc)) (s.mem.read (BitVec.ofNat 8 (s.pc + 1)))
        (s.mem.read (BitVec.ofNat 8 (s.pc + 2)))) = .next t ∧
      (t.Unfaulted → cycle om s = .next t ∧ t.ir = s.mem.read (BitVec.ofNat 8 s.pc) ∧
        t.opA = s.mem.read (BitVec.ofNat 8 (s.pc + 1)) ∧ t.opB = s.mem.read (BitVec.ofNat 8 (s.pc + 2))) ∧
      (∀ f, t.status = .faulted f → cycle om s = .next { s with status := .faulted f })) ∧
  (∀ s : State, step s = cycle opcodeOf s)

/-- R65: an opcode byte that matches no instruction raises UnsupportedOpcode; nothing else is written. -/
def Obligations.UnknownOpcodeFaultsAndWritesNothing : Prop :=
  ∀ (om : OpcodeMap) (s : State), s.CanFetch → (∀ m, om m ≠ s.mem.read (BitVec.ofNat 8 s.pc)) →
    cycle om s = .next { s with status := .faulted (.unsupportedOpcode s.pc (s.mem.read (BitVec.ofNat 8 s.pc))) }

/-- R62, R114 (the spec's decision D4): a fetch above 253 faults whatever memory holds. -/
def Obligations.FetchAbove253Faults : Prop :=
  ∀ (om : OpcodeMap) (s : State), s.status = .running → 253 < s.pc →
    cycle om s = .next { s with status := .faulted (.fetchOutOfRange s.pc) }

/-- R70: reaching a cell the loader did not write, unchanged since the load, is UnsupportedOpcode with IR = 0 under the
default map (D1, log entry 1), not a clean stop. -/
def Obligations.RunningOffTheProgramFaults : Prop :=
  ∀ (program : List Byte) (s u : State), State.boot program = .next s → u.CanFetch → program.length ≤ u.pc →
    u.mem.read (BitVec.ofNat 8 u.pc) = s.mem.read (BitVec.ofNat 8 u.pc) →
    step u = .next { u with status := .faulted (.unsupportedOpcode u.pc 0) }

/-- R66, R97 (the spec's decisions D3 and D9): the first register field that holds 8..255, `a` before `b`, raises
BadRegister before any other effect or stack fault, taken branch or not. -/
def Obligations.BadRegisterComesFirst : Prop :=
  ∀ (i : Instr) (s : State) (field : RegField) (value : Byte), i.firstBadField = some (field, value) →
    exec i s = .next { s with status := .faulted (.badRegister s.pc s.ir field value) }

/-- R80 (the spec's decision D6): a push at `sp` = 0 and a pop at `sp` = 255 fault and write nothing. -/
def Obligations.StackBoundsFault : Prop :=
  (∀ (a : Byte) (s : State), a.toNat < 8 → s.sp = 0 →
    exec (.push a) s = .next { s with status := .faulted (.stackOverflow s.pc 0) } ∧
    exec (.call a) s = .next { s with status := .faulted (.stackOverflow s.pc 0) }) ∧
  (∀ (a : Byte) (s : State), a.toNat < 8 → s.sp = 255 →
    exec (.pop a) s = .next { s with status := .faulted (.stackUnderflow s.pc 255) } ∧
    exec .ret s = .next { s with status := .faulted (.stackUnderflow s.pc 255) })

/-- R28 (an inference of the spec): the latches left by earlier instructions influence no step. -/
def Obligations.OldLatchesInfluenceNothing : Prop :=
  ∀ (om : OpcodeMap) (s : State) (x y z : Byte), s.status = .running →
    ∃ t u, cycle om s = .next t ∧ cycle om (s.latch x y z) = .next u ∧
      ((t.Unfaulted ∧ u = t) ∨ (t.Crashed ∧ u = t.latch x y z))

/-! ### The instructions: result, completion, frame -/

/-- LDI (R72). -/
def Obligations.LdiLoadsItsImmediate : Prop :=
  ∀ (a b : Byte) (ha : a.toNat < 8) (s : State), ∃ t, exec (.ldi a b) s = .next t ∧
    t.reg ⟨a.toNat, ha⟩ = b ∧ t.pc = s.pc + 3 ∧
    SameRegs s t [⟨a.toNat, ha⟩] ∧ SameMem s t [] ∧ SameRest s t

/-- R75: ADD and MUL keep the low 8 bits of the exact unsigned result and write no flag. -/
def Obligations.AddAndMulWrapModulo256 : Prop :=
  ∀ (a b : Byte) (ha : a.toNat < 8) (hb : b.toNat < 8) (s : State),
    (∃ t, exec (.add a b) s = .next t ∧
      (t.reg ⟨a.toNat, ha⟩).toNat = ((s.reg ⟨a.toNat, ha⟩).toNat + (s.reg ⟨b.toNat, hb⟩).toNat) % 256 ∧
      t.pc = s.pc + 3 ∧ SameRegs s t [⟨a.toNat, ha⟩] ∧ SameMem s t [] ∧ SameRest s t) ∧
    (∃ t, exec (.mul a b) s = .next t ∧
      (t.reg ⟨a.toNat, ha⟩).toNat = ((s.reg ⟨a.toNat, ha⟩).toNat * (s.reg ⟨b.toNat, hb⟩).toNat) % 256 ∧
      t.pc = s.pc + 3 ∧ SameRegs s t [⟨a.toNat, ha⟩] ∧ SameMem s t [] ∧ SameRest s t)

/-- CMP (R78): the three flags are the three cases of the unsigned order. -/
def Obligations.CmpComparesUnsigned : Prop :=
  ∀ (a b : Byte) (ha : a.toNat < 8) (hb : b.toNat < 8) (s : State), ∃ t, exec (.cmp a b) s = .next t ∧
    (t.E = true ↔ (s.reg ⟨a.toNat, ha⟩).toNat = (s.reg ⟨b.toNat, hb⟩).toNat) ∧
    (t.L = true ↔ (s.reg ⟨a.toNat, ha⟩).toNat < (s.reg ⟨b.toNat, hb⟩).toNat) ∧
    (t.G = true ↔ (s.reg ⟨b.toNat, hb⟩).toNat < (s.reg ⟨a.toNat, ha⟩).toNat) ∧
    t.pc = s.pc + 3 ∧ SameRegs s t [] ∧ SameMem s t [] ∧ t.sp = s.sp ∧ t.status = s.status ∧
    SameLatches s t ∧ t.out = s.out

/-- R25: exactly one flag is true after any CMP, and all three are false until the first. -/
def Obligations.ExactlyOneFlagAfterCmpNoneBefore : Prop :=
  (∀ (a b : Byte) (s : State), a.toNat < 8 → b.toNat < 8 → ∃ t, exec (.cmp a b) s = .next t ∧
    ((t.E = true ∧ t.L = false ∧ t.G = false) ∨ (t.E = false ∧ t.L = true ∧ t.G = false) ∨
      (t.E = false ∧ t.L = false ∧ t.G = true))) ∧
  (∀ (om : OpcodeMap) (program : List Byte) (s t : State), State.boot program = .next s →
    StepsWhere om (fun u => u.fetchedMnemonic om ≠ some .cmp) s t →
    t.E = false ∧ t.L = false ∧ t.G = false)

/-- PUSH (R81): the stored byte stands at `sp - 1`, the new `sp`. -/
def Obligations.PushStoresAtTheNewStackPointer : Prop :=
  ∀ (a : Byte) (ha : a.toNat < 8) (s : State), s.mem.wf → s.sp ≠ 0 → ∃ t, exec (.push a) s = .next t ∧
    t.sp = s.sp - 1 ∧ t.mem.read (s.sp - 1) = s.reg ⟨a.toNat, ha⟩ ∧ t.pc = s.pc + 2 ∧
    SameMem s t [s.sp - 1] ∧ SameRegs s t [] ∧ SameFlags s t ∧ t.status = s.status ∧ SameLatches s t ∧ t.out = s.out

/-- POP (R82): the popped cell keeps its value. -/
def Obligations.PopLoadsFromTheStackPointer : Prop :=
  ∀ (a : Byte) (ha : a.toNat < 8) (s : State), s.sp ≠ 255 → ∃ t, exec (.pop a) s = .next t ∧
    t.reg ⟨a.toNat, ha⟩ = s.mem.read s.sp ∧ t.sp = s.sp + 1 ∧ t.pc = s.pc + 2 ∧
    SameRegs s t [⟨a.toNat, ha⟩] ∧ SameMem s t [] ∧ SameFlags s t ∧ t.status = s.status ∧ SameLatches s t ∧
    t.out = s.out

/-- CALL (R83): wherever a CALL can be fetched, the stored byte is exactly `pc + 2`. -/
def Obligations.CallSavesTheReturnAddress : Prop :=
  ∀ (a : Byte) (ha : a.toNat < 8) (s : State), s.mem.wf → s.sp ≠ 0 → s.pc ≤ 253 →
    ∃ t, exec (.call a) s = .next t ∧
      t.pc = (s.reg ⟨a.toNat, ha⟩).toNat ∧ t.sp = s.sp - 1 ∧ (t.mem.read (s.sp - 1)).toNat = s.pc + 2 ∧
      SameMem s t [s.sp - 1] ∧ SameRegs s t [] ∧ SameFlags s t ∧ t.status = s.status ∧ SameLatches s t ∧
      t.out = s.out

/-- RET (R84). -/
def Obligations.RetJumpsToThePoppedByte : Prop :=
  ∀ s : State, s.sp ≠ 255 → ∃ t, exec .ret s = .next t ∧
    t.pc = (s.mem.read s.sp).toNat ∧ t.sp = s.sp + 1 ∧
    SameRegs s t [] ∧ SameMem s t [] ∧ SameFlags s t ∧ t.status = s.status ∧ SameLatches s t ∧ t.out = s.out

/-- JMP (R88). -/
def Obligations.JmpGoesToTheRegister : Prop :=
  ∀ (a : Byte) (ha : a.toNat < 8) (s : State), ∃ t, exec (.jmp a) s = .next t ∧
    t.pc = (s.reg ⟨a.toNat, ha⟩).toNat ∧ SameRegs s t [] ∧ SameMem s t [] ∧ SameRest s t

/-- JEQ and JNE (R89, R90): one branches where the other falls through, on E alone. -/
def Obligations.ConditionalJumpsFollowEqual : Prop :=
  ∀ (a : Byte) (ha : a.toNat < 8) (s : State),
    (∃ t, exec (.jeq a) s = .next t ∧
      (s.E = true → t.pc = (s.reg ⟨a.toNat, ha⟩).toNat) ∧ (s.E = false → t.pc = s.pc + 2) ∧
      SameRegs s t [] ∧ SameMem s t [] ∧ SameRest s t) ∧
    (∃ t, exec (.jne a) s = .next t ∧
      (s.E = true → t.pc = s.pc + 2) ∧ (s.E = false → t.pc = (s.reg ⟨a.toNat, ha⟩).toNat) ∧
      SameRegs s t [] ∧ SameMem s t [] ∧ SameRest s t)

/-- HLT (R91). -/
def Obligations.HltHaltsPastItself : Prop :=
  ∀ s : State, ∃ t, exec .hlt s = .next t ∧ t.status = .halted ∧ t.pc = s.pc + 1 ∧
    SameRegs s t [] ∧ SameMem s t [] ∧ t.sp = s.sp ∧ SameFlags s t ∧ SameLatches s t ∧ t.out = s.out

/-- PRN (R92). -/
def Obligations.PrnAppendsTheRegister : Prop :=
  ∀ (a : Byte) (ha : a.toNat < 8) (s : State), ∃ t, exec (.prn a) s = .next t ∧
    t.out = s.out ++ [s.reg ⟨a.toNat, ha⟩] ∧ t.pc = s.pc + 2 ∧
    SameRegs s t [] ∧ SameMem s t [] ∧ t.sp = s.sp ∧ SameFlags s t ∧ t.status = s.status ∧ SameLatches s t

/-! ### Laws across instructions -/

/-- R85 (an inference of the spec): a RET run when `sp` and the return cell are as the CALL left them returns to
`pc_call + 2` with the old `sp`; a POP after a PUSH moves the value and restores `sp`. -/
def Obligations.CallReturnAndPushPopBalance : Prop :=
  (∀ (a : Byte) (s t u : State), a.toNat < 8 → s.mem.wf → s.sp ≠ 0 → s.pc ≤ 253 → exec (.call a) s = .next t →
    u.sp = t.sp → u.mem.read t.sp = t.mem.read t.sp →
    ∃ v, exec .ret u = .next v ∧ v.pc = s.pc + 2 ∧ v.sp = s.sp) ∧
  (∀ (a b : Byte) (ha : a.toNat < 8) (hb : b.toNat < 8) (s t u : State), s.mem.wf → s.sp ≠ 0 →
    exec (.push a) s = .next t → u.sp = t.sp → u.mem.read t.sp = t.mem.read t.sp →
    ∃ v, exec (.pop b) u = .next v ∧ v.reg ⟨b.toNat, hb⟩ = s.reg ⟨a.toNat, ha⟩ ∧ v.sp = s.sp)

/-- R79: push pre-decrements and pop post-increments, one byte an entry, and nothing tells data and return addresses
apart: POP takes a return address, RET a pushed data byte. -/
def Obligations.StackHoldsDataAndReturnAddressesAlike : Prop :=
  ∀ (a b : Byte) (ha : a.toNat < 8) (hb : b.toNat < 8) (s : State), s.mem.wf → s.sp ≠ 0 → s.pc ≤ 253 →
    (∃ t, exec (.push a) s = .next t ∧ t.sp.toNat + 1 = s.sp.toNat ∧ t.mem.read t.sp = s.reg ⟨a.toNat, ha⟩ ∧
      SameMem s t [t.sp] ∧
      (∃ u, exec (.pop b) t = .next u ∧ u.reg ⟨b.toNat, hb⟩ = s.reg ⟨a.toNat, ha⟩ ∧ u.sp = s.sp) ∧
      (∃ u, exec .ret t = .next u ∧ u.pc = (s.reg ⟨a.toNat, ha⟩).toNat ∧ u.sp = s.sp)) ∧
    (∃ t, exec (.call a) s = .next t ∧ t.sp.toNat + 1 = s.sp.toNat ∧ (t.mem.read t.sp).toNat = s.pc + 2 ∧
      SameMem s t [t.sp] ∧
      (∃ u, exec (.pop b) t = .next u ∧ (u.reg ⟨b.toNat, hb⟩).toNat = s.pc + 2 ∧ u.sp = s.sp) ∧
      (∃ u, exec .ret t = .next u ∧ u.pc = s.pc + 2 ∧ u.sp = s.sp))

/-- R41, R47, R113: a byte that PUSH or CALL stores where the next instruction stands is what the next fetch reads, and
the storing instruction itself keeps the operand it was given. -/
def Obligations.StackWritesAreSeenByTheNextFetch : Prop :=
  ∀ (a : Byte) (ha : a.toNat < 8) (s : State) (k : Nat), s.mem.wf → s.sp ≠ 0 → s.pc ≤ 253 →
    (∃ t, exec (.push a) s = .next t ∧
      (BitVec.ofNat 8 (t.pc + k) = s.sp - 1 → t.byteAtPc k = s.reg ⟨a.toNat, ha⟩)) ∧
    (∃ t, exec (.call a) s = .next t ∧
      (BitVec.ofNat 8 (t.pc + k) = s.sp - 1 → (t.byteAtPc k).toNat = s.pc + 2))

/-- R111 (an inference of the spec): from an empty stack at 244 (canonical memory), 244 pushes complete, entry `i` at
`243 - i` and nothing at 244 or above touched, and the next one overflows. -/
def Obligations.StackHolds244EntriesFromReset : Prop :=
  ∀ (regs : List Byte) (s : State), (∀ a ∈ regs, a.toNat < 8) → s.mem.wf → s.sp = 244 →
    (regs.length ≤ 244 → ∃ t, pushEach regs s = .next t ∧ t.sp.toNat + regs.length = 244 ∧ t.status = s.status ∧
      t.regs = s.regs ∧
      (∀ (i : Nat) (hi : i < regs.length) (h : regs[i].toNat < 8),
        t.mem.read (BitVec.ofNat 8 (243 - i)) = s.reg ⟨regs[i].toNat, h⟩) ∧
      (∀ a : Addr, 244 ≤ a.toNat → t.mem.read a = s.mem.read a)) ∧
    (regs.length = 244 → ∀ b : Byte, b.toNat < 8 → ∃ t, pushEach regs s = .next t ∧
      exec (.push b) t = .next { t with status := .faulted (.stackOverflow t.pc 0) })

/-- R73: the ALU has exactly the operations ADD, MUL and CMP, is invoked by those instructions, depends only on the operation
and the two register values (not on which registers hold them), and writes `x[a]` (ADD, MUL) or the flags (CMP) and nothing else. -/
def Obligations.AluTouchesOnlyItsResult : Prop :=
  (∀ (op : Mnemonic) (ra rb : Reg) (s : State),
    (∃ t, s.alu op ra rb = .ok t) ↔ op ∈ [Mnemonic.add, .mul, .cmp]) ∧
  (∀ (op : Mnemonic) (ra rb : Reg) (s t : State), s.alu op ra rb = .ok t →
    t.pc = s.pc ∧ t.sp = s.sp ∧ t.mem = s.mem ∧ t.status = s.status ∧ t.out = s.out ∧ SameLatches s t ∧
    (op ≠ .cmp → SameFlags s t ∧ SameRegs s t [ra]) ∧ (op = .cmp → SameRegs s t [])) ∧
  (∀ (op : Mnemonic) (ra rb ra' rb' : Reg) (s s' t t' : State), s.reg ra = s'.reg ra' → s.reg rb = s'.reg rb' →
    s.alu op ra rb = .ok t → s'.alu op ra' rb' = .ok t' →
    (op ≠ .cmp → t.reg ra = t'.reg ra') ∧ (op = .cmp → SameFlags t t')) ∧
  (∀ (a b : Byte) (ha : a.toNat < 8) (hb : b.toNat < 8) (s : State),
    (∃ t, s.alu .add ⟨a.toNat, ha⟩ ⟨b.toNat, hb⟩ = .ok t ∧ exec (.add a b) s = .next (t.advance 3)) ∧
    (∃ t, s.alu .mul ⟨a.toNat, ha⟩ ⟨b.toNat, hb⟩ = .ok t ∧ exec (.mul a b) s = .next (t.advance 3)) ∧
    (∃ t, s.alu .cmp ⟨a.toNat, ha⟩ ⟨b.toNat, hb⟩ = .ok t ∧ exec (.cmp a b) s = .next (t.advance 3)))

/-- R16: every instruction reads and writes exactly the registers of the table: registers it does not write keep their
values, and registers it does not read influence nothing. -/
def Obligations.RegistersReadAndWrittenAreTheTables : Prop :=
  (∀ (i : Instr) (s t : State) (q : Reg), exec i s = .next t → (∀ b ∈ writeFields i, b.toNat ≠ q) →
    t.reg q = s.reg q) ∧
  (∀ (i : Instr) (s s' : State), s' = { s with regs := s'.regs } →
    (∀ b ∈ readFields i s.E, ∀ h : b.toNat < 8, s'.reg ⟨b.toNat, h⟩ = s.reg ⟨b.toNat, h⟩) →
    ∃ t t', exec i s = .next t ∧ exec i s' = .next t' ∧ t' = { t with regs := t'.regs } ∧
      (t.Unfaulted → ∀ b ∈ writeFields i, ∀ h : b.toNat < 8, t'.reg ⟨b.toNat, h⟩ = t.reg ⟨b.toNat, h⟩))

/-- R24: CMP alone writes the flags, JEQ and JNE read E alone and put it in nothing but `pc`, no instruction reads L or G,
and a flag reaches no register, no memory cell, no `sp` and no output. -/
def Obligations.FlagsSteerOnlyConditionalJumps : Prop :=
  (∀ (i : Instr) (s : State) (f : Flags), i.mnemonic ∉ [Mnemonic.cmp, .jeq, .jne] →
    ∃ t, exec i s = .next t ∧ SameFlags s t ∧ exec i (s.setFlags f) = .next (t.setFlags f)) ∧
  (∀ (i : Instr) (s : State) (f : Flags), i.mnemonic ∈ [Mnemonic.jeq, .jne] → f.E = s.E →
    ∃ t, exec i s = .next t ∧ SameFlags s t ∧ exec i (s.setFlags f) = .next (t.setFlags f)) ∧
  (∀ (i : Instr) (s : State) (f : Flags), i.mnemonic = .cmp →
    ∃ t, exec i s = .next t ∧
      (i.wf = true → exec i (s.setFlags f) = .next t) ∧
      (i.wf = false → SameFlags s t ∧ exec i (s.setFlags f) = .next (t.setFlags f))) ∧
  (∀ (a : Byte) (ha : a.toNat < 8) (s : State), ∃ t u, exec (.jeq a) s = .next t ∧ exec (.jne a) s = .next u ∧
    t.pc = (if s.E then (s.reg ⟨a.toNat, ha⟩).toNat else s.pc + 2) ∧
    u.pc = (if s.E then s.pc + 2 else (s.reg ⟨a.toNat, ha⟩).toNat) ∧
    SameRegs s t [] ∧ SameMem s t [] ∧ SameRest s t ∧ SameRegs s u [] ∧ SameMem s u [] ∧ SameRest s u) ∧
  (∀ (i : Instr) (s : State) (f : Flags), i.mnemonic ∈ [Mnemonic.jeq, .jne] → i.wf = false →
    ∃ t, exec i s = .next t ∧ SameFlags s t ∧ exec i (s.setFlags f) = .next (t.setFlags f))

/-! ### The trace port -/

/-- The trace of R33 and R106: a line is there exactly before an instruction of a Running core, with `pc`, the three bytes
and the eight registers as they stand then; every completed instruction has one; a run's trace is the lines of its steps
in order, cut where the run is cut, none once the core is Halted or Faulted. That an instruction which then faults has
its line, and a fetch that finds no instruction has none, is the model's choice, log entry 14. -/
def Obligations.TraceGivesOneLinePerInstruction : Prop :=
  (∀ (om : OpcodeMap) (s : State) (l : TraceLine), s.traceLine om = some l ↔
    s.CanFetch ∧ (∃ m, s.fetchedMnemonic om = some m) ∧
      l = ⟨s.pc, s.mem.read (BitVec.ofNat 8 s.pc), s.mem.read (BitVec.ofNat 8 (s.pc + 1)),
        s.mem.read (BitVec.ofNat 8 (s.pc + 2)), s.regs⟩) ∧
  (∀ (om : OpcodeMap) (s t : State), cycle om s = .next t → t.Unfaulted → ∃ l, s.traceLine om = some l ∧
    ∀ n : Nat, State.traceRun om (n + 1) s = l :: State.traceRun om n t) ∧
  (∀ (om : OpcodeMap) (j k : Nat) (s t : State), State.run om j s = .next t →
    State.traceRun om (j + k) s = State.traceRun om j s ++ State.traceRun om k t) ∧
  (∀ (om : OpcodeMap) (n : Nat) (s : State), (State.traceRun om n s).length ≤ n ∧
    (s.status ≠ .running → State.traceRun om n s = []))
end

