-- ==== Sys2Proof/Laws/Decode.lean ====
section
/-! SUPPORT. Small lemmas of the decoder and encoder. -/

namespace Sys2Proof

theorem mem_allMnemonics (m : Mnemonic) : m ∈ allMnemonics := by cases m <;> decide

/-- What a decoded opcode matched. -/
theorem lookupOpcode_sound {om : OpcodeMap} {ir : Byte} {m : Mnemonic} (h : lookupOpcode om ir = some m) : om m = ir :=
  of_decide_eq_true (List.find?_some (p := fun m => decide (om m = ir)) h)

/-- An opcode that decodes to nothing matches no instruction. -/
theorem lookupOpcode_none {om : OpcodeMap} {ir : Byte} (h : lookupOpcode om ir = none) (m : Mnemonic) : om m ≠ ir := by
  have := List.find?_eq_none.mp h m (mem_allMnemonics m)
  simpa using this

theorem opcodeOf_injective : opcodeOf.Injective := by
  intro m n h
  cases m <;> cases n <;> first | rfl | exact absurd h (by decide)

@[simp] theorem assemble_mnemonic (m : Mnemonic) (a b : Byte) : (assemble m a b).mnemonic = m := by cases m <;> rfl

/-- Putting an instruction's own operand bytes back gives it again. -/
theorem assemble_operandBytes (i : Instr) (rest : List Byte) :
    assemble i.mnemonic ((i.operandBytes ++ rest).getD 0 0) ((i.operandBytes ++ rest).getD 1 0) = i := by
  cases i <;> rfl

theorem operandBytes_length (i : Instr) : i.operandBytes.length + 1 = i.mnemonic.length := by cases i <;> rfl

theorem Instr.wf_iff_firstBadField (i : Instr) : i.wf = true ↔ i.firstBadField = none := by
  simp only [Instr.wf, Instr.firstBadField, List.all_eq_true, List.find?_eq_none, decide_eq_true_eq]
  exact forall₂_congr fun _ _ => by omega

end Sys2Proof
end

