-- ==== Sys2Proof/Laws/Memory.lean ====
section
/-! SUPPORT. The laws of memory: a read after a write, and the canonical form, which every memory operation keeps. -/

namespace Sys2Proof.Machine

/-! ### The list operations -/

/-- A key below every listed key reads as 0. -/
theorem cellAt_eq_zero_of_lt {m : Memory} {k : Nat} (h : ∀ c ∈ m, k < c.1) : cellAt m k = 0 := by
  induction m with
  | nil => rfl
  | cons c rest ih =>
    obtain ⟨j, w⟩ := c
    have hj : k < j := h (j, w) (by simp)
    simp only [cellAt, if_neg (Nat.ne_of_gt hj)]
    exact ih fun c hc => h c (by simp [hc])

theorem cellAt_putCell_same {m : Memory} (hm : m.Pairwise (fun c d => c.1 < d.1)) (k : Nat) (v : Byte) :
    cellAt (putCell m k v) k = v := by
  induction m with
  | nil => simp only [putCell]; split <;> simp_all [cellAt]
  | cons c rest ih =>
    obtain ⟨j, w⟩ := c
    obtain ⟨hj, hrest⟩ := List.pairwise_cons.mp hm
    simp only [putCell]
    split
    · rename_i hkj
      split
      · subst v
        refine cellAt_eq_zero_of_lt fun c hc => ?_
        rcases List.mem_cons.mp hc with rfl | hc
        · exact hkj
        · exact Nat.lt_trans hkj (hj c hc)
      · simp [cellAt]
    · split
      · subst k
        split
        · subst v; exact cellAt_eq_zero_of_lt hj
        · simp [cellAt]
      · rename_i hkj
        simp only [cellAt, if_neg (Ne.symm hkj)]
        exact ih hrest

theorem cellAt_putCell_ne (m : Memory) {k l : Nat} (h : l ≠ k) (v : Byte) : cellAt (putCell m k v) l = cellAt m l := by
  induction m with
  | nil => simp only [putCell]; split <;> simp [cellAt, Ne.symm h]
  | cons c rest ih =>
    obtain ⟨j, w⟩ := c
    simp only [putCell]
    split
    · split <;> simp [cellAt, Ne.symm h]
    · split
      · subst k
        split <;> simp [cellAt, Ne.symm h]
      · simp [cellAt, ih]

/-- Every cell of the result is an old cell or the written one. -/
theorem mem_putCell {m : Memory} {k : Nat} {v : Byte} {c : Host.Cell} (h : c ∈ putCell m k v) :
    c ∈ m ∨ (c = (k, v) ∧ v ≠ 0) := by
  induction m with
  | nil =>
    simp only [putCell] at h
    split at h
    · exact absurd h (by simp)
    · rename_i hv
      exact .inr ⟨List.mem_singleton.mp h, hv⟩
  | cons d rest ih =>
    obtain ⟨j, w⟩ := d
    simp only [putCell] at h
    split at h
    · split at h
      · exact .inl h
      · rename_i hv
        rcases List.mem_cons.mp h with rfl | h
        · exact .inr ⟨rfl, hv⟩
        · exact .inl h
    · split at h
      · split at h
        · exact .inl (List.mem_cons_of_mem _ h)
        · rename_i hv
          rcases List.mem_cons.mp h with rfl | h
          · exact .inr ⟨rfl, hv⟩
          · exact .inl (List.mem_cons_of_mem _ h)
      · rcases List.mem_cons.mp h with rfl | h
        · exact .inl (by simp)
        · exact (ih h).imp (List.mem_cons_of_mem _) id

theorem putCell_pairwise {m : Memory} (hm : m.Pairwise (fun c d => c.1 < d.1)) (k : Nat) (v : Byte) :
    (putCell m k v).Pairwise (fun c d => c.1 < d.1) := by
  induction m with
  | nil => simp only [putCell]; split <;> simp
  | cons c rest ih =>
    obtain ⟨j, w⟩ := c
    obtain ⟨hj, hrest⟩ := List.pairwise_cons.mp hm
    simp only [putCell]
    split
    · rename_i hkj
      split
      · exact hm
      · refine List.pairwise_cons.mpr ⟨fun d hd => ?_, hm⟩
        rcases List.mem_cons.mp hd with rfl | hd
        · exact hkj
        · exact Nat.lt_trans hkj (hj d hd)
    · rename_i hnlt
      split
      · subst k
        split
        · exact hrest
        · exact List.pairwise_cons.mpr ⟨hj, hrest⟩
      · rename_i hne
        refine List.pairwise_cons.mpr ⟨fun d hd => ?_, ih hrest⟩
        rcases mem_putCell hd with hd | ⟨rfl, -⟩
        · exact hj d hd
        · show j < k
          omega

/-! ### The operations of the machine -/

@[simp] theorem Memory.read_write_same {m : Memory} (hm : m.wf) (a : Addr) (v : Byte) : (m.write a v).read a = v :=
  cellAt_putCell_same hm.1 _ _

theorem Memory.read_write_ne (m : Memory) {a b : Addr} (h : b ≠ a) (v : Byte) : (m.write a v).read b = m.read b :=
  cellAt_putCell_ne m (fun e => h (BitVec.eq_of_toNat_eq e)) v

/-- A write keeps the canonical form. -/
theorem Memory.write_wf {m : Memory} (hm : m.wf) (a : Addr) (v : Byte) : (m.write a v).wf := by
  refine ⟨putCell_pairwise hm.1 _ _, fun c hc => ?_⟩
  rcases mem_putCell hc with hc | ⟨rfl, hv⟩
  · exact hm.2 c hc
  · exact ⟨a.isLt, hv⟩

/-- A run of writes keeps the canonical form. -/
theorem Memory.writeAll_wf {m : Memory} (hm : m.wf) (a : Addr) (bytes : List Byte) : (m.writeAll a bytes).wf := by
  induction bytes generalizing m a with
  | nil => exact hm
  | cons v vs ih => exact ih (Memory.write_wf hm a v) (a + 1)

theorem Memory.nil_wf : Memory.wf [] := by simp [Memory.wf]

@[simp] theorem Memory.read_nil (a : Addr) : Memory.read [] a = 0 := rfl

/-- A run of writes leaves every address outside it alone. -/
theorem Memory.read_writeAll_outside (m : Memory) (a b : Addr) (bytes : List Byte)
    (h : ∀ i < bytes.length, b ≠ a + BitVec.ofNat 8 i) : (m.writeAll a bytes).read b = m.read b := by
  induction bytes generalizing m a with
  | nil => rfl
  | cons v vs ih =>
    have h0 : b ≠ a := by simpa using h 0 (by simp)
    have hrest : ∀ i < vs.length, b ≠ a + 1 + BitVec.ofNat 8 i := fun i hi e => by
      refine h (i + 1) (by simpa using hi) (e.trans ?_)
      rw [BitVec.add_assoc, BitVec.ofNat_add]
      congr 1
      exact BitVec.add_comm _ _
    exact (ih (m.write a v) (a + 1) hrest).trans (Memory.read_write_ne m h0 v)

/-- After a run of at most 256 writes, byte `i` stands at `a + i`. -/
theorem Memory.read_writeAll_inside {m : Memory} (hm : m.wf) (a : Addr) (bytes : List Byte) (hlen : bytes.length ≤ 256)
    (i : Nat) (hi : i < bytes.length) : (m.writeAll a bytes).read (a + BitVec.ofNat 8 i) = bytes[i] := by
  induction bytes generalizing m a i with
  | nil => simp at hi
  | cons v vs ih =>
    simp only [List.length_cons] at hlen hi
    cases i with
    | zero =>
      simp only [Memory.writeAll]
      rw [Memory.read_writeAll_outside]
      · simpa using Memory.read_write_same hm a v
      · intro j hj e
        have := congrArg BitVec.toNat e
        simp [BitVec.toNat_add] at this
        omega
    | succ j =>
      have e : a + BitVec.ofNat 8 (j + 1) = a + 1 + BitVec.ofNat 8 j := by
        rw [BitVec.add_assoc, BitVec.ofNat_add]
        congr 1
        exact BitVec.add_comm _ _
      rw [e]
      exact ih (Memory.write_wf hm a v) (a + 1) (by omega) j (by omega)

end Sys2Proof.Machine
end

