-- ==== Sys2Proof/Laws/State.lean ====
section
/-! SUPPORT. One lemma per field per update of State, so that no proof unfolds a record update; and the register file's
read-after-write laws. -/

namespace Sys2Proof.Machine

section
variable (s : State)

@[simp] theorem State.setReg_regs (r : Reg) (v : Byte) : (s.setReg r v).regs = s.regs.set r v := rfl
@[simp] theorem State.setReg_pc (r : Reg) (v : Byte) : (s.setReg r v).pc = s.pc := rfl
@[simp] theorem State.setReg_sp (r : Reg) (v : Byte) : (s.setReg r v).sp = s.sp := rfl
@[simp] theorem State.setReg_E (r : Reg) (v : Byte) : (s.setReg r v).E = s.E := rfl
@[simp] theorem State.setReg_L (r : Reg) (v : Byte) : (s.setReg r v).L = s.L := rfl
@[simp] theorem State.setReg_G (r : Reg) (v : Byte) : (s.setReg r v).G = s.G := rfl
@[simp] theorem State.setReg_status (r : Reg) (v : Byte) : (s.setReg r v).status = s.status := rfl
@[simp] theorem State.setReg_ir (r : Reg) (v : Byte) : (s.setReg r v).ir = s.ir := rfl
@[simp] theorem State.setReg_opA (r : Reg) (v : Byte) : (s.setReg r v).opA = s.opA := rfl
@[simp] theorem State.setReg_opB (r : Reg) (v : Byte) : (s.setReg r v).opB = s.opB := rfl
@[simp] theorem State.setReg_mem (r : Reg) (v : Byte) : (s.setReg r v).mem = s.mem := rfl
@[simp] theorem State.setReg_out (r : Reg) (v : Byte) : (s.setReg r v).out = s.out := rfl

@[simp] theorem State.setPc_regs (p : Nat) : (s.setPc p).regs = s.regs := rfl
@[simp] theorem State.setPc_pc (p : Nat) : (s.setPc p).pc = p := rfl
@[simp] theorem State.setPc_sp (p : Nat) : (s.setPc p).sp = s.sp := rfl
@[simp] theorem State.setPc_E (p : Nat) : (s.setPc p).E = s.E := rfl
@[simp] theorem State.setPc_L (p : Nat) : (s.setPc p).L = s.L := rfl
@[simp] theorem State.setPc_G (p : Nat) : (s.setPc p).G = s.G := rfl
@[simp] theorem State.setPc_status (p : Nat) : (s.setPc p).status = s.status := rfl
@[simp] theorem State.setPc_ir (p : Nat) : (s.setPc p).ir = s.ir := rfl
@[simp] theorem State.setPc_opA (p : Nat) : (s.setPc p).opA = s.opA := rfl
@[simp] theorem State.setPc_opB (p : Nat) : (s.setPc p).opB = s.opB := rfl
@[simp] theorem State.setPc_mem (p : Nat) : (s.setPc p).mem = s.mem := rfl
@[simp] theorem State.setPc_out (p : Nat) : (s.setPc p).out = s.out := rfl

@[simp] theorem State.advance_regs (n : Nat) : (s.advance n).regs = s.regs := rfl
@[simp] theorem State.advance_pc (n : Nat) : (s.advance n).pc = s.pc + n := rfl
@[simp] theorem State.advance_sp (n : Nat) : (s.advance n).sp = s.sp := rfl
@[simp] theorem State.advance_E (n : Nat) : (s.advance n).E = s.E := rfl
@[simp] theorem State.advance_L (n : Nat) : (s.advance n).L = s.L := rfl
@[simp] theorem State.advance_G (n : Nat) : (s.advance n).G = s.G := rfl
@[simp] theorem State.advance_status (n : Nat) : (s.advance n).status = s.status := rfl
@[simp] theorem State.advance_ir (n : Nat) : (s.advance n).ir = s.ir := rfl
@[simp] theorem State.advance_opA (n : Nat) : (s.advance n).opA = s.opA := rfl
@[simp] theorem State.advance_opB (n : Nat) : (s.advance n).opB = s.opB := rfl
@[simp] theorem State.advance_mem (n : Nat) : (s.advance n).mem = s.mem := rfl
@[simp] theorem State.advance_out (n : Nat) : (s.advance n).out = s.out := rfl

@[simp] theorem State.setSp_regs (v : Byte) : (s.setSp v).regs = s.regs := rfl
@[simp] theorem State.setSp_pc (v : Byte) : (s.setSp v).pc = s.pc := rfl
@[simp] theorem State.setSp_sp (v : Byte) : (s.setSp v).sp = v := rfl
@[simp] theorem State.setSp_E (v : Byte) : (s.setSp v).E = s.E := rfl
@[simp] theorem State.setSp_L (v : Byte) : (s.setSp v).L = s.L := rfl
@[simp] theorem State.setSp_G (v : Byte) : (s.setSp v).G = s.G := rfl
@[simp] theorem State.setSp_status (v : Byte) : (s.setSp v).status = s.status := rfl
@[simp] theorem State.setSp_ir (v : Byte) : (s.setSp v).ir = s.ir := rfl
@[simp] theorem State.setSp_opA (v : Byte) : (s.setSp v).opA = s.opA := rfl
@[simp] theorem State.setSp_opB (v : Byte) : (s.setSp v).opB = s.opB := rfl
@[simp] theorem State.setSp_mem (v : Byte) : (s.setSp v).mem = s.mem := rfl
@[simp] theorem State.setSp_out (v : Byte) : (s.setSp v).out = s.out := rfl

@[simp] theorem State.setFlags_regs (f : Flags) : (s.setFlags f).regs = s.regs := rfl
@[simp] theorem State.setFlags_pc (f : Flags) : (s.setFlags f).pc = s.pc := rfl
@[simp] theorem State.setFlags_sp (f : Flags) : (s.setFlags f).sp = s.sp := rfl
@[simp] theorem State.setFlags_E (f : Flags) : (s.setFlags f).E = f.E := rfl
@[simp] theorem State.setFlags_L (f : Flags) : (s.setFlags f).L = f.L := rfl
@[simp] theorem State.setFlags_G (f : Flags) : (s.setFlags f).G = f.G := rfl
@[simp] theorem State.setFlags_status (f : Flags) : (s.setFlags f).status = s.status := rfl
@[simp] theorem State.setFlags_ir (f : Flags) : (s.setFlags f).ir = s.ir := rfl
@[simp] theorem State.setFlags_opA (f : Flags) : (s.setFlags f).opA = s.opA := rfl
@[simp] theorem State.setFlags_opB (f : Flags) : (s.setFlags f).opB = s.opB := rfl
@[simp] theorem State.setFlags_mem (f : Flags) : (s.setFlags f).mem = s.mem := rfl
@[simp] theorem State.setFlags_out (f : Flags) : (s.setFlags f).out = s.out := rfl

@[simp] theorem State.memWrite_regs (a : Addr) (v : Byte) : (s.memWrite a v).regs = s.regs := rfl
@[simp] theorem State.memWrite_pc (a : Addr) (v : Byte) : (s.memWrite a v).pc = s.pc := rfl
@[simp] theorem State.memWrite_sp (a : Addr) (v : Byte) : (s.memWrite a v).sp = s.sp := rfl
@[simp] theorem State.memWrite_E (a : Addr) (v : Byte) : (s.memWrite a v).E = s.E := rfl
@[simp] theorem State.memWrite_L (a : Addr) (v : Byte) : (s.memWrite a v).L = s.L := rfl
@[simp] theorem State.memWrite_G (a : Addr) (v : Byte) : (s.memWrite a v).G = s.G := rfl
@[simp] theorem State.memWrite_status (a : Addr) (v : Byte) : (s.memWrite a v).status = s.status := rfl
@[simp] theorem State.memWrite_ir (a : Addr) (v : Byte) : (s.memWrite a v).ir = s.ir := rfl
@[simp] theorem State.memWrite_opA (a : Addr) (v : Byte) : (s.memWrite a v).opA = s.opA := rfl
@[simp] theorem State.memWrite_opB (a : Addr) (v : Byte) : (s.memWrite a v).opB = s.opB := rfl
@[simp] theorem State.memWrite_mem (a : Addr) (v : Byte) : (s.memWrite a v).mem = s.mem.write a v := rfl
@[simp] theorem State.memWrite_out (a : Addr) (v : Byte) : (s.memWrite a v).out = s.out := rfl

@[simp] theorem State.emit_regs (v : Byte) : (s.emit v).regs = s.regs := rfl
@[simp] theorem State.emit_pc (v : Byte) : (s.emit v).pc = s.pc := rfl
@[simp] theorem State.emit_sp (v : Byte) : (s.emit v).sp = s.sp := rfl
@[simp] theorem State.emit_E (v : Byte) : (s.emit v).E = s.E := rfl
@[simp] theorem State.emit_L (v : Byte) : (s.emit v).L = s.L := rfl
@[simp] theorem State.emit_G (v : Byte) : (s.emit v).G = s.G := rfl
@[simp] theorem State.emit_status (v : Byte) : (s.emit v).status = s.status := rfl
@[simp] theorem State.emit_ir (v : Byte) : (s.emit v).ir = s.ir := rfl
@[simp] theorem State.emit_opA (v : Byte) : (s.emit v).opA = s.opA := rfl
@[simp] theorem State.emit_opB (v : Byte) : (s.emit v).opB = s.opB := rfl
@[simp] theorem State.emit_mem (v : Byte) : (s.emit v).mem = s.mem := rfl
@[simp] theorem State.emit_out (v : Byte) : (s.emit v).out = s.out ++ [v] := rfl

@[simp] theorem State.setStatus_regs (st : Status) : (s.setStatus st).regs = s.regs := rfl
@[simp] theorem State.setStatus_pc (st : Status) : (s.setStatus st).pc = s.pc := rfl
@[simp] theorem State.setStatus_sp (st : Status) : (s.setStatus st).sp = s.sp := rfl
@[simp] theorem State.setStatus_E (st : Status) : (s.setStatus st).E = s.E := rfl
@[simp] theorem State.setStatus_L (st : Status) : (s.setStatus st).L = s.L := rfl
@[simp] theorem State.setStatus_G (st : Status) : (s.setStatus st).G = s.G := rfl
@[simp] theorem State.setStatus_status (st : Status) : (s.setStatus st).status = st := rfl
@[simp] theorem State.setStatus_ir (st : Status) : (s.setStatus st).ir = s.ir := rfl
@[simp] theorem State.setStatus_opA (st : Status) : (s.setStatus st).opA = s.opA := rfl
@[simp] theorem State.setStatus_opB (st : Status) : (s.setStatus st).opB = s.opB := rfl
@[simp] theorem State.setStatus_mem (st : Status) : (s.setStatus st).mem = s.mem := rfl
@[simp] theorem State.setStatus_out (st : Status) : (s.setStatus st).out = s.out := rfl

@[simp] theorem State.latch_regs (x y z : Byte) : (s.latch x y z).regs = s.regs := rfl
@[simp] theorem State.latch_pc (x y z : Byte) : (s.latch x y z).pc = s.pc := rfl
@[simp] theorem State.latch_sp (x y z : Byte) : (s.latch x y z).sp = s.sp := rfl
@[simp] theorem State.latch_E (x y z : Byte) : (s.latch x y z).E = s.E := rfl
@[simp] theorem State.latch_L (x y z : Byte) : (s.latch x y z).L = s.L := rfl
@[simp] theorem State.latch_G (x y z : Byte) : (s.latch x y z).G = s.G := rfl
@[simp] theorem State.latch_status (x y z : Byte) : (s.latch x y z).status = s.status := rfl
@[simp] theorem State.latch_ir (x y z : Byte) : (s.latch x y z).ir = x := rfl
@[simp] theorem State.latch_opA (x y z : Byte) : (s.latch x y z).opA = y := rfl
@[simp] theorem State.latch_opB (x y z : Byte) : (s.latch x y z).opB = z := rfl
@[simp] theorem State.latch_mem (x y z : Byte) : (s.latch x y z).mem = s.mem := rfl
@[simp] theorem State.latch_out (x y z : Byte) : (s.latch x y z).out = s.out := rfl

@[simp] theorem State.raise_regs (f : CoreFault) : (s.raise f).regs = s.regs := rfl
@[simp] theorem State.raise_pc (f : CoreFault) : (s.raise f).pc = s.pc := rfl
@[simp] theorem State.raise_sp (f : CoreFault) : (s.raise f).sp = s.sp := rfl
@[simp] theorem State.raise_E (f : CoreFault) : (s.raise f).E = s.E := rfl
@[simp] theorem State.raise_L (f : CoreFault) : (s.raise f).L = s.L := rfl
@[simp] theorem State.raise_G (f : CoreFault) : (s.raise f).G = s.G := rfl
@[simp] theorem State.raise_status (f : CoreFault) : (s.raise f).status = .faulted f := rfl
@[simp] theorem State.raise_ir (f : CoreFault) : (s.raise f).ir = s.ir := rfl
@[simp] theorem State.raise_opA (f : CoreFault) : (s.raise f).opA = s.opA := rfl
@[simp] theorem State.raise_opB (f : CoreFault) : (s.raise f).opB = s.opB := rfl
@[simp] theorem State.raise_mem (f : CoreFault) : (s.raise f).mem = s.mem := rfl
@[simp] theorem State.raise_out (f : CoreFault) : (s.raise f).out = s.out := rfl

@[simp] theorem State.fetch_regs : (s.fetch).regs = s.regs := rfl
@[simp] theorem State.fetch_pc : (s.fetch).pc = s.pc := rfl
@[simp] theorem State.fetch_sp : (s.fetch).sp = s.sp := rfl
@[simp] theorem State.fetch_E : (s.fetch).E = s.E := rfl
@[simp] theorem State.fetch_L : (s.fetch).L = s.L := rfl
@[simp] theorem State.fetch_G : (s.fetch).G = s.G := rfl
@[simp] theorem State.fetch_status : (s.fetch).status = s.status := rfl
@[simp] theorem State.fetch_ir : (s.fetch).ir = s.byteAtPc 0 := rfl
@[simp] theorem State.fetch_opA : (s.fetch).opA = s.byteAtPc 1 := rfl
@[simp] theorem State.fetch_opB : (s.fetch).opB = s.byteAtPc 2 := rfl
@[simp] theorem State.fetch_mem : (s.fetch).mem = s.mem := rfl
@[simp] theorem State.fetch_out : (s.fetch).out = s.out := rfl

end

/-! ### Registers -/

@[simp] theorem State.reg_setReg_same (s : State) (r : Reg) (v : Byte) : (s.setReg r v).reg r = v := by
  simp [State.reg]

theorem State.reg_setReg_ne (s : State) {r q : Reg} (v : Byte) (h : q ≠ r) : (s.setReg r v).reg q = s.reg q := by
  have : (r : Nat) ≠ q := fun e => h (Fin.ext e.symm)
  simp [State.reg, this]

/-- A register read sees only the register file. -/
theorem State.reg_congr {s t : State} (h : t.regs = s.regs) (q : Reg) : t.reg q = s.reg q := by
  simp [State.reg, h]

@[simp] theorem State.reg_setPc (s : State) (p : Nat) (q : Reg) : (s.setPc p).reg q = s.reg q := rfl
@[simp] theorem State.reg_advance (s : State) (n : Nat) (q : Reg) : (s.advance n).reg q = s.reg q := rfl
@[simp] theorem State.reg_setSp (s : State) (v : Byte) (q : Reg) : (s.setSp v).reg q = s.reg q := rfl
@[simp] theorem State.reg_setFlags (s : State) (f : Flags) (q : Reg) : (s.setFlags f).reg q = s.reg q := rfl
@[simp] theorem State.reg_memWrite (s : State) (a : Addr) (v : Byte) (q : Reg) : (s.memWrite a v).reg q = s.reg q := rfl
@[simp] theorem State.reg_emit (s : State) (v : Byte) (q : Reg) : (s.emit v).reg q = s.reg q := rfl
@[simp] theorem State.reg_setStatus (s : State) (st : Status) (q : Reg) : (s.setStatus st).reg q = s.reg q := rfl
@[simp] theorem State.reg_latch (s : State) (x y z : Byte) (q : Reg) : (s.latch x y z).reg q = s.reg q := rfl
@[simp] theorem State.reg_raise (s : State) (f : CoreFault) (q : Reg) : (s.raise f).reg q = s.reg q := rfl
@[simp] theorem State.reg_fetch (s : State) (q : Reg) : (s.fetch).reg q = s.reg q := rfl

/-! ### Reset -/

@[simp] theorem State.reset_reg (q : Reg) : State.reset.reg q = 0 := by simp [State.reg, State.reset]

end Sys2Proof.Machine
end

