-- ==== Sys2Proof/Laws/Ops.lean ====
section
/-! SUPPORT. One lemma per shared operation: everything it can do. Later proofs cite these instead of unfolding. -/

namespace Sys2Proof.Machine

/-! ### Settling a handler -/

/-- A handler goes on with the value of a part that raised nothing. -/
@[simp] theorem except_ok_bind {α β : Type} (x : α) (f : α → Except CoreFault β) :
    ((Except.ok x : Except CoreFault α) >>= f) = f x := rfl

/-- A fault ends the handler. -/
@[simp] theorem except_error_bind {α β : Type} (e : CoreFault) (f : α → Except CoreFault β) :
    ((Except.error e : Except CoreFault α) >>= f) = .error e := rfl

@[simp] theorem State.settle_ok (s t : State) : s.settle (.ok t) = .next t := rfl

@[simp] theorem State.settle_error (s : State) (f : CoreFault) : s.settle (.error f) = .next (s.raise f) := rfl

/-- A handler always answers a next state: its own, or `s` with the fault it raised. -/
theorem State.settle_cases {s : State} {e : Except CoreFault State} {r : Result} (h : s.settle e = r) :
    (∃ t, e = .ok t ∧ r = .next t) ∨ (∃ f, e = .error f ∧ r = .next (s.raise f)) := by
  cases e with
  | ok t => exact .inl ⟨t, rfl, h.symm⟩
  | error f => exact .inr ⟨f, rfl, h.symm⟩

/-! ### Committing a step -/

theorem State.commit_next_of_faulted (before : State) {t : State} {f : CoreFault} (h : t.status = .faulted f) :
    before.commit (.next t) = .next (before.raise f) := by simp [State.commit, h]

theorem State.commit_next_of_not_faulted (before : State) {t : State} (h : ∀ f, t.status ≠ .faulted f) :
    before.commit (.next t) = .next t := by
  cases e : t.status with
  | faulted f => exact absurd e (h f)
  | running => simp [State.commit, e]
  | halted => simp [State.commit, e]

/-- What a commit that answers a next state did. -/
theorem State.commit_eq_next {before u : State} {r : Result} (h : before.commit r = .next u) :
    ∃ t, r = .next t ∧
      ((∃ f, t.status = .faulted f ∧ u = before.raise f) ∨ ((∀ f, t.status ≠ .faulted f) ∧ u = t)) := by
  cases r with
  | fault f => simp [State.commit] at h
  | refused f => simp [State.commit] at h
  | next t =>
    refine ⟨t, rfl, ?_⟩
    cases e : t.status with
    | faulted f =>
      rw [State.commit_next_of_faulted before e] at h
      exact .inl ⟨f, rfl, by injection h with h; exact h.symm⟩
    | running =>
      rw [State.commit_next_of_not_faulted before (by simp [e])] at h
      exact .inr ⟨by simp, by injection h with h; exact h.symm⟩
    | halted =>
      rw [State.commit_next_of_not_faulted before (by simp [e])] at h
      exact .inr ⟨by simp, by injection h with h; exact h.symm⟩

/-! ### Register operands -/

theorem State.regOperand_of_lt (s : State) (field : RegField) {v : Byte} (h : v.toNat < 8) :
    s.regOperand field v = .ok ⟨v.toNat, h⟩ := dif_pos h

theorem State.regOperand_of_ge (s : State) (field : RegField) {v : Byte} (h : 8 ≤ v.toNat) :
    s.regOperand field v = .error (.badRegister s.pc s.ir field v) := dif_neg (Nat.not_lt.mpr h)

/-! ### Stack -/

theorem State.push_of_ne (s : State) (v : Byte) (h : s.sp ≠ 0) :
    s.push v = .ok ((s.setSp (s.sp - 1)).memWrite (s.sp - 1) v) := if_neg h

theorem State.push_of_eq (s : State) (v : Byte) (h : s.sp = 0) :
    s.push v = .error (.stackOverflow s.pc s.sp) := if_pos h

theorem State.pop_of_ne (s : State) (h : s.sp ≠ 255) : s.pop = .ok (s.mem.read s.sp, s.setSp (s.sp + 1)) := if_neg h

theorem State.pop_of_eq (s : State) (h : s.sp = 255) : s.pop = .error (.stackUnderflow s.pc s.sp) := if_pos h

/-! ### Arithmetic and flags -/

theorem addWrap_toNat (x y : Byte) : (addWrap x y).toNat = (x.toNat + y.toNat) % 256 := by
  simp [addWrap]

theorem mulWrap_toNat (x y : Byte) : (mulWrap x y).toNat = (x.toNat * y.toNat) % 256 := by
  simp [mulWrap]

/-- The three flags of a comparison are the three cases of the unsigned order. -/
theorem compareFlags_spec (x y : Byte) :
    ((compareFlags x y).E = true ↔ x.toNat = y.toNat) ∧ ((compareFlags x y).L = true ↔ x.toNat < y.toNat) ∧
      ((compareFlags x y).G = true ↔ y.toNat < x.toNat) := by
  unfold compareFlags
  split
  · subst x; simp
  · rename_i hne
    have : x.toNat ≠ y.toNat := fun e => hne (BitVec.eq_of_toNat_eq e)
    split <;> simp <;> omega

end Sys2Proof.Machine
end

