-- ==== Sys2Proof/Laws/Exec.lean ====
section
/-! SUPPORT. What each meaning answers when its operands name registers and the stack has room: the handler's
pseudocode in terms of the shared operations. -/

namespace Sys2Proof.Machine

section
variable (s : State) {a b : Byte} (ha : a.toNat < 8) (hb : b.toNat < 8)

theorem execHlt_eq : execHlt s = .next ((s.setStatus .halted).advance 1) := rfl

include ha in
theorem execLdi_eq : execLdi a b s = .next ((s.setReg ⟨a.toNat, ha⟩ b).advance 3) := by
  rw [execLdi, s.regOperand_of_lt .a ha]; rfl

include ha in
theorem execPrn_eq : execPrn a s = .next ((s.emit (s.reg ⟨a.toNat, ha⟩)).advance 2) := by
  rw [execPrn, s.regOperand_of_lt .a ha]; rfl

include ha hb in
theorem execAdd_eq : execAdd a b s =
    .next ((s.setReg ⟨a.toNat, ha⟩ (addWrap (s.reg ⟨a.toNat, ha⟩) (s.reg ⟨b.toNat, hb⟩))).advance 3) := by
  rw [execAdd, s.regOperand_of_lt .a ha, s.regOperand_of_lt .b hb]; rfl

include ha hb in
theorem execMul_eq : execMul a b s =
    .next ((s.setReg ⟨a.toNat, ha⟩ (mulWrap (s.reg ⟨a.toNat, ha⟩) (s.reg ⟨b.toNat, hb⟩))).advance 3) := by
  rw [execMul, s.regOperand_of_lt .a ha, s.regOperand_of_lt .b hb]; rfl

include ha hb in
theorem execCmp_eq : execCmp a b s =
    .next ((s.setFlags (compareFlags (s.reg ⟨a.toNat, ha⟩) (s.reg ⟨b.toNat, hb⟩))).advance 3) := by
  rw [execCmp, s.regOperand_of_lt .a ha, s.regOperand_of_lt .b hb]; rfl

include ha in
theorem execPush_eq (hsp : s.sp ≠ 0) : execPush a s =
    .next (((s.setSp (s.sp - 1)).memWrite (s.sp - 1) (s.reg ⟨a.toNat, ha⟩)).advance 2) := by
  rw [execPush, s.regOperand_of_lt .a ha, except_ok_bind, s.push_of_ne _ hsp]; rfl

include ha in
theorem execPop_eq (hsp : s.sp ≠ 255) : execPop a s =
    .next (((s.setSp (s.sp + 1)).setReg ⟨a.toNat, ha⟩ (s.mem.read s.sp)).advance 2) := by
  rw [execPop, s.regOperand_of_lt .a ha, s.pop_of_ne hsp]; rfl

include ha in
theorem execCall_eq (hsp : s.sp ≠ 0) : execCall a s =
    .next (((s.setSp (s.sp - 1)).memWrite (s.sp - 1) s.returnAddress).setPc (s.reg ⟨a.toNat, ha⟩).toNat) := by
  rw [execCall, s.regOperand_of_lt .a ha, s.push_of_ne _ hsp]; rfl

theorem execRet_eq (hsp : s.sp ≠ 255) :
    execRet s = .next ((s.setSp (s.sp + 1)).setPc (s.mem.read s.sp).toNat) := by
  rw [execRet, s.pop_of_ne hsp]; rfl

include ha in
theorem execJmp_eq : execJmp a s = .next (s.setPc (s.reg ⟨a.toNat, ha⟩).toNat) := by
  rw [execJmp, s.regOperand_of_lt .a ha]; rfl

include ha in
theorem execJeq_eq :
    execJeq a s = .next (if s.E then s.setPc (s.reg ⟨a.toNat, ha⟩).toNat else s.advance 2) := by
  rw [execJeq, s.regOperand_of_lt .a ha]; rfl

include ha in
theorem execJne_eq :
    execJne a s = .next (if s.E then s.advance 2 else s.setPc (s.reg ⟨a.toNat, ha⟩).toNat) := by
  rw [execJne, s.regOperand_of_lt .a ha]; rfl

end

/-- The meanings never stop the machine by themselves: every instruction answers a next state. -/
theorem exec_settles (i : Instr) (s : State) : ∃ e : Except CoreFault State, exec i s = s.settle e := by
  cases i <;> first | exact ⟨_, rfl⟩ | exact ⟨.ok _, rfl⟩

end Sys2Proof.Machine
end

