-- ==== Sys2Proof/Laws/Cycle.lean ====
section
/-! SUPPORT. What one cycle can do, and what it is in each case. -/

namespace Sys2Proof.Machine

theorem cycle_of_fetchOutOfRange (om : OpcodeMap) {s : State} (hr : s.status = .running) (hpc : lastFetchPc < s.pc) :
    cycle om s = .next (s.raise (.fetchOutOfRange s.pc)) := by
  simp [cycle, hr, hpc]

theorem cycle_of_decode_error (om : OpcodeMap) {s : State} {e : DecodeError} (hr : s.status = .running)
    (hpc : s.pc ≤ lastFetchPc) (hd : decodeWith om (s.byteAtPc 0) (s.byteAtPc 1) (s.byteAtPc 2) = .error e) :
    cycle om s = .next (s.raise (.unsupportedOpcode s.pc (s.byteAtPc 0))) := by
  simp [cycle, hr, Nat.not_lt.mpr hpc, hd]

theorem cycle_of_decode_ok (om : OpcodeMap) {s : State} {i : Instr} (hr : s.status = .running)
    (hpc : s.pc ≤ lastFetchPc) (hd : decodeWith om (s.byteAtPc 0) (s.byteAtPc 1) (s.byteAtPc 2) = .ok i) :
    cycle om s = s.commit (exec i s.fetch) := by
  simp [cycle, hr, Nat.not_lt.mpr hpc, hd]

/-- Everything a cycle that answers a next state can have done. -/
theorem cycle_cases {om : OpcodeMap} {s u : State} (h : cycle om s = .next u) :
    s.status = .running ∧
      ((lastFetchPc < s.pc ∧ u = s.raise (.fetchOutOfRange s.pc)) ∨
       (s.pc ≤ lastFetchPc ∧ lookupOpcode om (s.byteAtPc 0) = none ∧
          u = s.raise (.unsupportedOpcode s.pc (s.byteAtPc 0))) ∨
       (s.pc ≤ lastFetchPc ∧ ∃ i t, decodeWith om (s.byteAtPc 0) (s.byteAtPc 1) (s.byteAtPc 2) = .ok i ∧
          exec i s.fetch = .next t ∧
          ((∃ f, t.status = .faulted f ∧ u = s.raise f) ∨ ((∀ f, t.status ≠ .faulted f) ∧ u = t)))) := by
  have hr : s.status = .running := by
    cases e : s.status <;> simp [cycle, e] at h ⊢
  refine ⟨hr, ?_⟩
  by_cases hpc : lastFetchPc < s.pc
  · rw [cycle_of_fetchOutOfRange om hr hpc] at h
    exact .inl ⟨hpc, by injection h with h; exact h.symm⟩
  · have hle := Nat.not_lt.mp hpc
    refine .inr ?_
    cases hl : lookupOpcode om (s.byteAtPc 0) with
    | none =>
      rw [cycle_of_decode_error om hr hle (e := .unsupportedOpcode (s.byteAtPc 0)) (by simp [decodeWith, hl])] at h
      exact .inl ⟨hle, rfl, by injection h with h; exact h.symm⟩
    | some m =>
      have hd : decodeWith om (s.byteAtPc 0) (s.byteAtPc 1) (s.byteAtPc 2) =
          .ok (assemble m (s.byteAtPc 1) (s.byteAtPc 2)) := by simp [decodeWith, hl]
      rw [cycle_of_decode_ok om hr hle hd] at h
      obtain ⟨t, ht, hc⟩ := State.commit_eq_next h
      exact .inr ⟨hle, _, t, hd, ht, hc⟩

end Sys2Proof.Machine
end

