-- ==== Sys2Proof/Laws/PerInstr.lean ====
section
/-! SUPPORT. Statements made of every instruction, one lemma per constructor (named in LAWS.json). -/

namespace Sys2Proof.Laws.EncodeShape

/-- The encoding starts with the opcode and is as long as the format says: 1, 2 or 3 bytes (30_encoding.md R49, R52). -/
def Statement (i : Instr) : Prop :=
  (encode i).head? = some (opcodeOf i.mnemonic) ∧ (encode i).length = i.mnemonic.length ∧
    1 ≤ (encode i).length ∧ (encode i).length ≤ 3

theorem hlt : Statement .hlt := ⟨rfl, rfl, by simp [encode, encodeWith, Instr.operandBytes], by simp [encode, encodeWith, Instr.operandBytes]⟩
theorem ldi (a b : Byte) : Statement (.ldi a b) := ⟨rfl, rfl, by simp [encode, encodeWith, Instr.operandBytes], by simp [encode, encodeWith, Instr.operandBytes]⟩
theorem prn (a : Byte) : Statement (.prn a) := ⟨rfl, rfl, by simp [encode, encodeWith, Instr.operandBytes], by simp [encode, encodeWith, Instr.operandBytes]⟩
theorem mul (a b : Byte) : Statement (.mul a b) := ⟨rfl, rfl, by simp [encode, encodeWith, Instr.operandBytes], by simp [encode, encodeWith, Instr.operandBytes]⟩
theorem push (a : Byte) : Statement (.push a) := ⟨rfl, rfl, by simp [encode, encodeWith, Instr.operandBytes], by simp [encode, encodeWith, Instr.operandBytes]⟩
theorem pop (a : Byte) : Statement (.pop a) := ⟨rfl, rfl, by simp [encode, encodeWith, Instr.operandBytes], by simp [encode, encodeWith, Instr.operandBytes]⟩
theorem add (a b : Byte) : Statement (.add a b) := ⟨rfl, rfl, by simp [encode, encodeWith, Instr.operandBytes], by simp [encode, encodeWith, Instr.operandBytes]⟩
theorem call (a : Byte) : Statement (.call a) := ⟨rfl, rfl, by simp [encode, encodeWith, Instr.operandBytes], by simp [encode, encodeWith, Instr.operandBytes]⟩
theorem ret : Statement .ret := ⟨rfl, rfl, by simp [encode, encodeWith, Instr.operandBytes], by simp [encode, encodeWith, Instr.operandBytes]⟩
theorem cmp (a b : Byte) : Statement (.cmp a b) := ⟨rfl, rfl, by simp [encode, encodeWith, Instr.operandBytes], by simp [encode, encodeWith, Instr.operandBytes]⟩
theorem jmp (a : Byte) : Statement (.jmp a) := ⟨rfl, rfl, by simp [encode, encodeWith, Instr.operandBytes], by simp [encode, encodeWith, Instr.operandBytes]⟩
theorem jeq (a : Byte) : Statement (.jeq a) := ⟨rfl, rfl, by simp [encode, encodeWith, Instr.operandBytes], by simp [encode, encodeWith, Instr.operandBytes]⟩
theorem jne (a : Byte) : Statement (.jne a) := ⟨rfl, rfl, by simp [encode, encodeWith, Instr.operandBytes], by simp [encode, encodeWith, Instr.operandBytes]⟩

end Sys2Proof.Laws.EncodeShape

namespace Sys2Proof.Laws.FieldsOfFormat

/-- The register fields of an instruction are those its format names (30_encoding.md R49, 40_fetch_decode_execute.md
R66): `a` in R and RI, `a` then `b` in RR, none in Z. -/
def Statement (i : Instr) : Prop :=
  i.regFields.map Prod.fst =
    match i.mnemonic.format with
    | .Z => []
    | .R => [.a]
    | .RR => [.a, .b]
    | .RI => [.a]

theorem hlt : Statement .hlt := rfl
theorem ldi (a b : Byte) : Statement (.ldi a b) := rfl
theorem prn (a : Byte) : Statement (.prn a) := rfl
theorem mul (a b : Byte) : Statement (.mul a b) := rfl
theorem push (a : Byte) : Statement (.push a) := rfl
theorem pop (a : Byte) : Statement (.pop a) := rfl
theorem add (a b : Byte) : Statement (.add a b) := rfl
theorem call (a : Byte) : Statement (.call a) := rfl
theorem ret : Statement .ret := rfl
theorem cmp (a b : Byte) : Statement (.cmp a b) := rfl
theorem jmp (a : Byte) : Statement (.jmp a) := rfl
theorem jeq (a : Byte) : Statement (.jeq a) := rfl
theorem jne (a : Byte) : Statement (.jne a) := rfl

end Sys2Proof.Laws.FieldsOfFormat
end

