-- ==== Sys2Proof/Laws/Ports.lean ====
section
/-! SUPPORT. The small lemmas of runs and traces: nothing after the end, and one step at a time before it. -/

namespace Sys2Proof.Machine

/-- A machine that is not Running stops at once. -/
theorem cycle_of_ended (om : OpcodeMap) {s : State} (h : s.status ≠ .running) : ∃ f, cycle om s = .fault f := by
  cases e : s.status with
  | running => exact absurd e h
  | halted => exact ⟨.halted, by simp [cycle, e]⟩
  | faulted f => exact ⟨.faulted f, by simp [cycle, e]⟩

@[simp] theorem State.traceRun_zero (om : OpcodeMap) (s : State) : State.traceRun om 0 s = [] := rfl

theorem State.traceRun_of_ended (om : OpcodeMap) (n : Nat) {s : State} (h : s.status ≠ .running) :
    State.traceRun om n s = [] := by
  obtain ⟨f, hf⟩ := cycle_of_ended om h
  cases n with
  | zero => rfl
  | succ n => simp [State.traceRun, hf]

theorem State.traceRun_succ (om : OpcodeMap) (n : Nat) {s t : State} (h : cycle om s = .next t) :
    State.traceRun om (n + 1) s = (s.traceLine om).toList ++ State.traceRun om n t := by
  simp [State.traceRun, h]

theorem State.run_succ (om : OpcodeMap) (n : Nat) {s t : State} (h : cycle om s = .next t) :
    State.run om (n + 1) s = State.run om n t := by
  simp [State.run, (cycle_cases h).1, h]

/-- No line without a Running core whose fetch window lies inside memory. -/
theorem State.traceLine_canFetch {om : OpcodeMap} {s : State} {l : TraceLine} (h : s.traceLine om = some l) :
    s.status = .running ∧ s.pc ≤ lastFetchPc := by
  unfold State.traceLine at h
  split at h
  · exact absurd h (by simp)
  · exact absurd h (by simp)
  · rename_i hr
    split at h
    · exact absurd h (by simp)
    · rename_i hpc
      exact ⟨hr, Nat.not_lt.mp hpc⟩

end Sys2Proof.Machine
end

