-- ==== Sys2Proof/Tests/Slice0.lean ====
section
/-! SUPPORT. Tests of the model. Expected results come from spec/95_test_vectors.md (the vector is named in each comment)
or, where none is named, from the cited rule by hand. Witnesses of the obligations' hypotheses stand at the end. -/

namespace Sys2Proof.Tests

open Sys2Proof Sys2Proof.Machine

/-! ### Helpers -/

/-- The reset state with `pc` at `p` and `bytes` in memory from `p` upward. -/
def codeAt (p : Nat) (bytes : List Byte) : State :=
  { State.reset with pc := p, mem := State.reset.mem.writeAll (BitVec.ofNat 8 p) bytes }

/-- What one step gives, where it gives a next state. -/
def after (s : State) : Option State :=
  match step s with
  | .next t => some t
  | .fault _ => none
  | .refused _ => none

/-- The state with `sp` at `v`. -/
def withSp (s : State) (v : Byte) : State := s.setSp v

/-! ### Well-formedness: an ill-formed term for each check -/

theorem test_wf_ldi_refuses_a8 : (Instr.ldi 8 0).wf = false := by decide
theorem test_wf_ldi_immediate_is_free : (Instr.ldi 7 255).wf = true := by decide
theorem test_wf_prn_refuses_a8 : (Instr.prn 8).wf = false := by decide
theorem test_wf_mul_refuses_b8 : (Instr.mul 0 8).wf = false := by decide
theorem test_wf_mul_refuses_a255 : (Instr.mul 255 0).wf = false := by decide
theorem test_wf_push_refuses_a8 : (Instr.push 8).wf = false := by decide
theorem test_wf_pop_refuses_a8 : (Instr.pop 8).wf = false := by decide
theorem test_wf_add_refuses_b255 : (Instr.add 3 255).wf = false := by decide
theorem test_wf_add_refuses_a8 : (Instr.add 8 0).wf = false := by decide
theorem test_wf_call_refuses_a8 : (Instr.call 8).wf = false := by decide
theorem test_wf_cmp_refuses_a8 : (Instr.cmp 8 0).wf = false := by decide
theorem test_wf_cmp_refuses_b8 : (Instr.cmp 0 8).wf = false := by decide
theorem test_wf_jmp_refuses_a9 : (Instr.jmp 9).wf = false := by decide
theorem test_wf_jeq_refuses_a8 : (Instr.jeq 8).wf = false := by decide
theorem test_wf_jne_refuses_a8 : (Instr.jne 8).wf = false := by decide
theorem test_wf_no_operand : Instr.hlt.wf = true ∧ Instr.ret.wf = true := by decide

/-! ### Decoding: a word of each constructor, written from 30_encoding.md R49 and R52 -/

theorem test_decode_hlt : decode 0b00000001 0 0 = .ok .hlt := by decide
theorem test_decode_ldi : decode 0b10000010 0b00000010 0b11111111 = .ok (.ldi 2 255) := by decide
theorem test_decode_prn : decode 0b01000111 0b00000101 0b11111111 = .ok (.prn 5) := by decide
theorem test_decode_mul : decode 0b10100010 0b00000001 0b00000000 = .ok (.mul 1 0) := by decide
theorem test_decode_push : decode 0b01000101 0b00000111 0 = .ok (.push 7) := by decide
theorem test_decode_pop : decode 0b01000110 0b00000001 0 = .ok (.pop 1) := by decide
theorem test_decode_add : decode 0b10100000 0b00000011 0b00000100 = .ok (.add 3 4) := by decide
theorem test_decode_call : decode 0b01010000 0b00000001 0 = .ok (.call 1) := by decide
theorem test_decode_ret : decode 0b00010001 0b11111111 0b11111111 = .ok .ret := by decide
theorem test_decode_cmp : decode 0b10100111 0b00000010 0b00000110 = .ok (.cmp 2 6) := by decide
theorem test_decode_jmp : decode 0b01010100 0b00000011 0 = .ok (.jmp 3) := by decide
theorem test_decode_jeq : decode 0b01010101 0b00000011 0 = .ok (.jeq 3) := by decide
theorem test_decode_jne : decode 0b01010110 0b00000011 0 = .ok (.jne 3) := by decide
/-- An ill-formed register byte is decoded, not masked (R51, V4); the machine faults on it. -/
theorem test_decode_keeps_bad_register : decode 0x82 8 1 = .ok (.ldi 8 1) := by decide
/-- V74: the match is exact. -/
theorem test_decode_A1 : decode 0xA1 0 1 = .error (.unsupportedOpcode 0xA1) := by decide
/-- R54: 243 byte values are no opcode. -/
theorem test_unsupported_count :
    ((List.range 256).filter (fun n => lookupOpcode opcodeOf (BitVec.ofNat 8 n) == none)).length = 243 := by
  decide +kernel
theorem test_decodeBytes_truncated : decodeBytes opcodeOf [0xA0, 1] = .error .endOfBytes := by decide
theorem test_encode_ldi : encode (.ldi 2 255) = [0x82, 0x02, 0xFF] := by decide
/-- The table's numbering: the opcode is bits 7:0, `a` bits 15:8, `b` bits 23:16. -/
theorem test_decodeTableWord : decodeTableWord 24 0xFF0282 = some (.ldi 2 255) := by decide
theorem test_decodeTableWord_short : decodeTableWord 8 0xA7 = some (.cmp 0 0) := by decide
theorem test_withFetchWord :
    (after (State.reset.withFetchWord 24 0xFF0282)).map (fun t => (t.reg 2, t.pc)) = some (0xFF, 3) := by decide

/-! ### One step of each instruction -/

/-- V1. -/
theorem test_ldi : (after (codeAt 0x10 [0x82, 0x02, 0xFF])).map (fun t => (t.reg 2, t.pc)) = some (0xFF, 0x13) := by
  decide
/-- V5: LDI at 253 leaves `pc` = 256. -/
theorem test_ldi_at_253 : (after (codeAt 253 [0x82, 0, 1])).map (fun t => (t.reg 0, t.pc)) = some (1, 256) := by decide
/-- V6. -/
theorem test_add_wraps :
    (after (((codeAt 0 [0xA0, 0, 1]).setReg 0 250).setReg 1 10)).map (fun t => (t.reg 0, t.reg 1, t.pc)) =
      some (4, 10, 3) := by decide
/-- V13: BadRegister for field `b`. -/
theorem test_add_bad_b :
    (after (codeAt 0 [0xA0, 3, 0xFF])).map (·.status) = some (.faulted (.badRegister 0 0xA0 .b 0xFF)) := by decide
/-- V17. -/
theorem test_mul_low_byte :
    (after (((codeAt 0 [0xA2, 0, 1]).setReg 0 255).setReg 1 255)).map (fun t => (t.reg 0, t.pc)) = some (1, 3) := by
  decide
/-- V24: the destination is `a`. -/
theorem test_mul_destination :
    (after (((codeAt 0 [0xA2, 1, 0]).setReg 1 6).setReg 0 7)).map (fun t => (t.reg 1, t.reg 0)) = some (42, 7) := by
  decide
/-- V30: unsigned. -/
theorem test_cmp_unsigned :
    (after (((codeAt 0 [0xA7, 0, 1]).setReg 0 0x80).setReg 1 0x7F)).map (fun t => (t.E, t.L, t.G, t.pc)) =
      some (false, false, true, 3) := by decide
/-- V32: no old flag survives. -/
theorem test_cmp_replaces_flags :
    (after ((((codeAt 0 [0xA7, 0, 1]).setReg 0 4).setReg 1 4).setFlags ⟨false, true, false⟩)).map
      (fun t => (t.E, t.L, t.G)) = some (true, false, false) := by decide
/-- V34. -/
theorem test_push :
    (after ((codeAt 0 [0x45, 0]).setReg 0 0x42)).map (fun t => (t.sp, t.mem.read 243, t.pc)) = some (243, 0x42, 2) := by
  decide
/-- V37: BadRegister comes before StackOverflow. -/
theorem test_push_bad_register_first :
    (after (withSp (codeAt 4 [0x45, 8]) 0)).map (·.status) = some (.faulted (.badRegister 4 0x45 .a 8)) := by decide
/-- V38: the cell keeps its value. -/
theorem test_pop :
    (after (withSp ((codeAt 0 [0x46, 1]).memWrite 243 0x42) 243)).map (fun t => (t.reg 1, t.sp, t.mem.read 243)) =
      some (0x42, 244, 0x42) := by decide
/-- V41. -/
theorem test_pop_underflow :
    (after (withSp (codeAt 0 [0x46, 1]) 255)).map (fun t => (t.status, t.sp, t.pc)) =
      some (.faulted (.stackUnderflow 0 255), 255, 0) := by decide
/-- V43. -/
theorem test_call_at_253 :
    (after ((codeAt 253 [0x50, 0]).setReg 0 0x10)).map (fun t => (t.mem.read 243, t.sp, t.pc)) =
      some (0xFF, 243, 0x10) := by decide
/-- P6, call 240: a CALL whose push overwrites its own operand byte uses the latched operand. -/
theorem test_call_overwrites_own_operand :
    (after (withSp ((codeAt 3 [0x50, 1]).setReg 1 3) 5)).map (fun t => (t.pc, t.mem.read 4, t.opA)) = some (3, 5, 1) := by
  decide
/-- V47: RET on an empty stack. -/
theorem test_ret_empty_stack : (after (codeAt 0x20 [0x11])).map (fun t => (t.pc, t.sp)) = some (0, 245) := by decide
/-- V46. -/
theorem test_ret :
    (after (withSp ((codeAt 0x40 [0x11]).memWrite 243 8) 243)).map (fun t => (t.pc, t.sp)) = some (8, 244) := by decide
/-- V50. -/
theorem test_jmp : (after ((codeAt 0x10 [0x54, 3]).setReg 3 0x20)).map (·.pc) = some 0x20 := by decide
/-- V52. -/
theorem test_jmp_bad_register :
    (after (codeAt 0 [0x54, 9])).map (·.status) = some (.faulted (.badRegister 0 0x54 .a 9)) := by decide
/-- V53. -/
theorem test_jeq_taken :
    (after (((codeAt 0x10 [0x55, 3]).setReg 3 0x20).setFlags ⟨true, false, false⟩)).map (·.pc) = some 0x20 := by decide
/-- V57: the register is checked although the branch is not taken. -/
theorem test_jeq_untaken_bad_register :
    (after (codeAt 0 [0x55, 8])).map (·.status) = some (.faulted (.badRegister 0 0x55 .a 8)) := by decide
/-- V59. -/
theorem test_jne_untaken :
    (after (((codeAt 0x14 [0x56, 3]).setReg 3 0x0C).setFlags ⟨true, false, false⟩)).map (·.pc) = some 0x16 := by decide
/-- V61: only E counts. -/
theorem test_jne_taken_on_greater :
    (after (((codeAt 0x14 [0x56, 3]).setReg 3 0x0C).setFlags ⟨false, false, true⟩)).map (·.pc) = some 0x0C := by decide
/-- V63. -/
theorem test_hlt : (after (codeAt 0x0A [0x01, 0xFF, 0xFF])).map (fun t => (t.status, t.pc)) = some (.halted, 0x0B) := by
  decide
/-- V65: HLT at 254 faults. -/
theorem test_hlt_at_254 :
    (after (codeAt 254 [0x01])).map (·.status) = some (.faulted (.fetchOutOfRange 254)) := by decide
/-- V66. -/
theorem test_prn : (after ((codeAt 0 [0x47, 0]).setReg 0 72)).map (fun t => (t.out, t.pc)) = some ([72], 2) := by decide
/-- V69: a faulting PRN emits nothing. -/
theorem test_prn_bad_register :
    (after (codeAt 0 [0x47, 8])).map (fun t => (t.out, t.status)) = some ([], .faulted (.badRegister 0 0x47 .a 8)) := by
  decide
/-- V71; the latches go back to what they were (R61). -/
theorem test_zero_byte_is_unsupported :
    (after (codeAt 5 [0])).map (fun t => (t.status, t.pc, t.ir)) = some (.faulted (.unsupportedOpcode 5 0), 5, 0) := by
  decide
/-- V76. -/
theorem test_fetch_at_256 :
    (after { State.reset with pc := 256 }).map (·.status) = some (.faulted (.fetchOutOfRange 256)) := by decide
/-- V77. -/
theorem test_no_step_when_halted : after (State.reset.setStatus .halted) = none := by decide

/-! ### Ports -/

/-- R57's own example line, a skipped line, and P1's second line. -/
theorem test_parse_lines :
    parseLines 0 ["10000010 # LDI R0,8".toList, "# comment".toList, "00000000".toList] = .ok [0x82, 0] := by decide
/-- R57: an ill-formed binary token is rejected. -/
theorem test_parse_ill_formed : parseLines 0 ["00000001".toList, "0012".toList] = .error 1 := by decide
/-- R98: nothing is loaded. -/
theorem test_bootFile_refuses : State.bootFile ["12".toList] = .refused (.illFormedLine 0) := by rfl
/-- R93: the byte 72 becomes the line `72`. -/
theorem test_console : (State.reset.emit 72).consoleLines = ["72"] := by decide
/-- R91, R98. -/
theorem test_exit_status_halted : (State.reset.setStatus .halted).exitStatus = some 0 := by decide
/-- R33: the trace shows `pc`, three bytes and the registers. -/
theorem test_trace :
    (codeAt 0 [0x82, 2, 255]).traceLine opcodeOf = some ⟨0, 0x82, 2, 255, State.reset.regs⟩ := by decide
/-- R33: no instruction follows in a Halted or Faulted core, so there is no line. -/
theorem test_no_trace_after_the_end :
    ((codeAt 0 [0x82, 2, 255]).setStatus .halted).traceLine opcodeOf = none ∧
      ((codeAt 0 [0x82, 2, 255]).raise (.fetchOutOfRange 254)).traceLine opcodeOf = none := by decide
/-- R106: a run of HLT alone gives its one line, however much fuel is left. -/
theorem test_trace_of_a_run :
    State.traceRun opcodeOf 3 (codeAt 0 [0x01]) = [⟨0, 0x01, 0, 0, State.reset.regs⟩] := by decide
/-- R95: the codes. -/
theorem test_fault_codes :
    (CoreFault.unsupportedOpcode 0 0).code = 1 ∧ (CoreFault.badRegister 0 0 .a 8).code = 2 ∧
      (CoreFault.fetchOutOfRange 254).code = 3 ∧ (CoreFault.stackOverflow 0 0).code = 4 ∧
      (CoreFault.stackUnderflow 0 255).code = 5 ∧ (CoreFault.aluUnsupported 0 0).code = 6 := by decide

/-! ### Witnesses: concrete states and operands that meet an obligation's hypotheses together -/

/-- A loaded program that writes R1 (LDI R1, 5), and the state one step later. -/
def ldiProgram : List Byte := [0x82, 1, 5]

def ldiStart : State := codeAt 0 ldiProgram

def ldiDone : State := (ldiStart.fetch.setReg 1 5).advance 3

theorem boot_ldiProgram : State.boot ldiProgram = .next ldiStart := by rfl

theorem cycle_ldiStart : cycle opcodeOf ldiStart = .next ldiDone := by rfl

theorem fetched_ldiStart : ldiStart.fetchedInstr opcodeOf = .ok (.ldi 1 5) := by decide

theorem test_witness_ResetLeavesTheSpecifiedState :
    (State.boot ldiProgram = .next ldiStart ∧
      StepsWhere opcodeOf (fun u => ∀ i, u.fetchedInstr opcodeOf = .ok i → ∀ b ∈ writeFields i, b.toNat ≠ (0 : Reg).val)
        ldiStart ldiDone) ∧
    ((7 : Byte).toNat < 8 ∧ State.reset.mem.wf ∧ State.reset.sp = State.reset.sp) := by
  refine ⟨⟨boot_ldiProgram, .tail (.refl _) ?_ cycle_ldiStart⟩, by decide, Memory.nil_wf, rfl⟩
  intro i hi b hb
  rw [fetched_ldiStart] at hi
  injection hi with hi
  subst hi
  simp only [writeFields, List.mem_singleton] at hb
  subst hb
  decide

/-- The longest program that loads, and the shortest that does not. -/
theorem test_witness_BootPlacesTheProgramAtZero :
    ((List.replicate 256 (1 : Byte)).length ≤ 256 ∧ 255 < (List.replicate 256 (1 : Byte)).length) ∧
      (ldiProgram.length ≤ 3 ∧ ldiProgram.length ≤ 255) ∧ 256 < (List.replicate 257 (1 : Byte)).length := by
  simp only [List.length_replicate]
  decide

theorem test_witness_ResetAndBootMeetTheInvariant : State.boot ldiProgram = .next ldiStart := boot_ldiProgram

theorem ldiStart_inv : ldiStart.Inv opcodeOf := ⟨by decide, by decide, by decide, trivial⟩

theorem test_witness_EveryStepKeepsTheInvariant :
    (ldiStart.Inv opcodeOf ∧ cycle opcodeOf ldiStart = .next ldiDone) ∧ step ldiStart = .next ldiDone :=
  ⟨⟨ldiStart_inv, cycle_ldiStart⟩, cycle_ldiStart⟩

/-- A run that has ended: HLT, one step. -/
def hltStart : State := codeAt 0 [1]

def hltDone : State := (hltStart.fetch.setStatus .halted).advance 1

theorem cycle_hltStart : cycle opcodeOf hltStart = .next hltDone := by rfl

theorem test_witness_EveryLoadedRunEndsTruthfullyOrGoesOn :
    State.boot [1] = .next hltStart ∧ State.run opcodeOf 1 hltStart = .next hltDone ∧ hltDone.status ≠ .running :=
  ⟨rfl, rfl, by decide⟩

theorem test_witness_RunningCoreAlwaysSteps : ldiStart.status = .running := rfl

/-- One faulting step for each fault that can happen. -/
theorem test_witness_FaultsArePrecise :
    (after State.reset).map (·.status) = some (.faulted (.unsupportedOpcode 0 0)) ∧
    (after (codeAt 9 [0x47, 8])).map (·.status) = some (.faulted (.badRegister 9 0x47 .a 8)) ∧
    (after (codeAt 254 [1])).map (·.status) = some (.faulted (.fetchOutOfRange 254)) ∧
    (after (withSp (codeAt 8 [0x45, 7]) 0)).map (·.status) = some (.faulted (.stackOverflow 8 0)) ∧
    (after (withSp (codeAt 8 [0x11]) 255)).map (·.status) = some (.faulted (.stackUnderflow 8 255)) := by
  decide

theorem test_witness_HaltedCoreStaysHalted :
    hltDone.status = .halted ∧ Reaches opcodeOf hltDone hltDone := ⟨by decide, .refl _⟩

theorem test_witness_NoStepExistsAfterTheEnd :
    hltDone.status = .halted ∧
      (State.reset.raise (.fetchOutOfRange 254)).status = .faulted (.fetchOutOfRange 254) := ⟨by decide, rfl⟩

/-- Both sides of the equivalence occur: HLT at the last fetchable address, and a step that does not halt. -/
theorem test_witness_OnlyHltEndsCleanly :
    ((after (codeAt 253 [1])).map (·.status) = some .halted ∧ (codeAt 253 [1]).pc ≤ 253 ∧
      (codeAt 253 [1]).fetchedMnemonic opcodeOf = some .hlt) ∧
    (cycle opcodeOf ldiStart = .next ldiDone ∧ ldiDone.status = .running) :=
  ⟨by decide, cycle_ldiStart, by decide⟩

/-- An advance to 256 and a transfer, both completed. -/
theorem test_witness_ProgramCounterMovesByLengthOrTransfer :
    (after (codeAt 253 [0x82, 0, 1])).map (fun t => (t.status, t.pc)) = some (.running, 256) ∧
    (after ((codeAt 0 [0x54, 0]).setReg 0 255)).map (fun t => (t.status, t.pc)) = some (.running, 255) := by decide

/-- A push at `sp` = 1, a pop at `sp` = 254, and an instruction that leaves `sp`. -/
theorem test_witness_StackPointerMovesByOne :
    (after (withSp (codeAt 8 [0x45, 0]) 1)).map (fun t => (t.status, t.sp)) = some (.running, 0) ∧
    (after (withSp (codeAt 8 [0x46, 0]) 254)).map (fun t => (t.status, t.sp)) = some (.running, 255) ∧
    (after ldiStart).map (fun t => (t.status, t.sp)) = some (.running, 244) := by decide

theorem test_witness_MemoryChangesOnlyJustBelowTheStackPointer :
    (after ((codeAt 8 [0x45, 0]).setReg 0 9)).map (fun t => t.mem.read 243) = some 9 ∧
      ((codeAt 8 [0x45, 0]).setReg 0 9).mem.read 243 = 0 := by decide

theorem test_witness_OutputOnlyGrows :
    Reaches opcodeOf ldiStart ldiDone ∧ cycle opcodeOf ldiStart = .next ldiDone ∧
      (after ((codeAt 0 [0x47, 7]).setReg 7 255)).map (·.out) = some [255] :=
  ⟨.tail (.refl _) trivial cycle_ldiStart, cycle_ldiStart, by decide⟩

/-- Each field does change in some step. -/
theorem test_witness_EachFieldHasItsResetValueAndWriters :
    State.boot ldiProgram = .next ldiStart ∧ cycle opcodeOf ldiStart = .next ldiDone ∧ ldiStart.Inv opcodeOf ∧
    ldiDone.regs ≠ ldiStart.regs ∧
    (after ((codeAt 8 [0x45, 0]).setReg 0 9)).map (fun t => (t.mem.read 243, t.sp)) = some (9, 243) ∧
    (after (codeAt 0 [0xA7, 0, 1])).map (·.E) = some true ∧
    (after hltStart).map (·.status) = some .halted ∧
    (after (codeAt 0 [0x47, 0])).map (·.out) = some [0] :=
  ⟨boot_ldiProgram, cycle_ldiStart, ldiStart_inv, by decide, by decide, by decide, by decide, by decide⟩

theorem test_witness_SelfJumpHangs :
    (7 : Byte).toNat < 8 ∧ (codeAt 0 [0x54, 7]).CanFetch ∧
      (codeAt 0 [0x54, 7]).fetchedInstr opcodeOf = .ok (.jmp 7) ∧
      ((codeAt 0 [0x54, 7]).reg 7).toNat = (codeAt 0 [0x54, 7]).pc :=
  ⟨by decide, ⟨rfl, by decide⟩, by decide, by decide⟩

theorem test_witness_RunIsSingleStepsRepeated :
    hltDone.status ≠ .running ∧ ldiStart.status = .running ∧ State.run opcodeOf 1 ldiStart = .next ldiDone :=
  ⟨by decide, rfl, rfl⟩

theorem test_witness_DecodeAndEncodeAgree :
    opcodeOf.Injective ∧ decodeBytes opcodeOf [0xA0, 255, 0, 9] = .ok (.add 255 0, [9]) :=
  ⟨opcodeOf_injective, by decide⟩

theorem test_witness_OpcodeMatchIsExact :
    opcodeOf.Injective ∧ decodeWith opcodeOf 0x01 0 0 = .ok .hlt ∧ decodeWith opcodeOf 0x56 7 0 = .ok (.jne 7) :=
  ⟨opcodeOf_injective, by decide, by decide⟩

theorem test_witness_LengthComesFromTheOpcodeAlone :
    lookupOpcode opcodeOf 0xA0 = some .add ∧ decodeBytes opcodeOf (0xA0 :: [1, 2, 3]) = .ok (.add 1 2, [3]) ∧
      lookupOpcode opcodeOf 0 = none ∧ (codeAt 253 [0]).CanFetch ∧ (codeAt 253 [0]).byteAtPc 0 = 0 :=
  ⟨by decide, by decide, by decide, ⟨rfl, by decide⟩, by decide⟩

theorem test_witness_UnusedOperandBytesAreIgnored :
    (lookupOpcode opcodeOf 0x11 = some .ret ∧ Mnemonic.format .ret = .Z) ∧
      (lookupOpcode opcodeOf 0x50 = some .call ∧ Mnemonic.format .call = .R) := by decide

/-- A form that completes and a form that faults, at the last fetchable address. -/
theorem test_witness_StepRunsTheFetchedInstruction :
    ((codeAt 253 [0x82, 7, 9]).CanFetch ∧
      decodeWith opcodeOf ((codeAt 253 [0x82, 7, 9]).mem.read 253) ((codeAt 253 [0x82, 7, 9]).mem.read 254)
        ((codeAt 253 [0x82, 7, 9]).mem.read 255) = .ok (.ldi 7 9)) ∧
    ((codeAt 253 [0x82, 8, 9]).CanFetch ∧
      (after (codeAt 253 [0x82, 8, 9])).map (·.status) = some (.faulted (.badRegister 253 0x82 .a 8))) :=
  ⟨⟨⟨rfl, by decide⟩, by decide⟩, ⟨rfl, by decide⟩, by decide⟩

theorem test_witness_UnknownOpcodeFaultsAndWritesNothing :
    (codeAt 253 [0x57]).CanFetch ∧ ∀ m, opcodeOf m ≠ (codeAt 253 [0x57]).mem.read 253 :=
  ⟨⟨rfl, by decide⟩, fun m => by cases m <;> decide⟩

theorem test_witness_FetchAbove253Faults : (codeAt 254 [1]).status = .running ∧ 253 < (codeAt 254 [1]).pc :=
  ⟨rfl, by decide⟩

theorem test_witness_RunningOffTheProgramFaults :
    State.boot ldiProgram = .next ldiStart ∧ ldiDone.CanFetch ∧ ldiProgram.length ≤ ldiDone.pc ∧
      ldiDone.mem.read (BitVec.ofNat 8 ldiDone.pc) = ldiStart.mem.read (BitVec.ofNat 8 ldiDone.pc) :=
  ⟨boot_ldiProgram, ⟨rfl, by decide⟩, by decide, by decide⟩

/-- Field `a` first, field `b` only when `a` is good, at the boundary value 8. -/
theorem test_witness_BadRegisterComesFirst :
    (Instr.add 8 9).firstBadField = some (.a, 8) ∧ (Instr.cmp 7 8).firstBadField = some (.b, 8) ∧
      (Instr.jne 255).firstBadField = some (.a, 255) := by decide

theorem test_witness_StackBoundsFault :
    ((7 : Byte).toNat < 8 ∧ (withSp State.reset 0).sp = 0) ∧ ((0 : Byte).toNat < 8 ∧ (withSp State.reset 255).sp = 255) := by
  decide

theorem test_witness_OldLatchesInfluenceNothing : (ldiStart.latch 1 2 3).status = .running := rfl

/-- For the statements whose hypotheses are register operands alone, at both ends of the range: LdiLoadsItsImmediate,
AddAndMulWrapModulo256, CmpComparesUnsigned, JmpGoesToTheRegister, ConditionalJumpsFollowEqual, PrnAppendsTheRegister
(HltHaltsPastItself has none). -/
theorem test_witness_register_operands : (0 : Byte).toNat < 8 ∧ (7 : Byte).toNat < 8 := by decide

theorem test_witness_ExactlyOneFlagAfterCmpNoneBefore :
    ((0 : Byte).toNat < 8 ∧ (7 : Byte).toNat < 8) ∧ State.boot ldiProgram = .next ldiStart ∧
      StepsWhere opcodeOf (fun u => u.fetchedMnemonic opcodeOf ≠ some .cmp) ldiStart ldiDone :=
  ⟨by decide, boot_ldiProgram, .tail (.refl _) (by decide) cycle_ldiStart⟩

/-- For PushStoresAtTheNewStackPointer, CallSavesTheReturnAddress and StackHoldsDataAndReturnAddressesAlike: the lowest `sp` that may push, the highest `pc` that may be fetched. -/
theorem test_witness_push_and_call :
    (7 : Byte).toNat < 8 ∧ (withSp ldiStart 1).mem.wf ∧ (withSp ldiStart 1).sp ≠ 0 ∧
      (withSp (codeAt 253 [0x50, 0]) 1).mem.wf ∧ (withSp (codeAt 253 [0x50, 0]) 1).sp ≠ 0 ∧
      (withSp (codeAt 253 [0x50, 0]) 1).pc ≤ 253 := by decide

/-- For PopLoadsFromTheStackPointer and RetJumpsToThePoppedByte: the highest `sp` that may pop. -/
theorem test_witness_pop_and_ret : (7 : Byte).toNat < 8 ∧ (withSp State.reset 254).sp ≠ 255 := by decide

/-- The state a CALL or a PUSH leaves, with `sp` and the top cell as it left them. -/
theorem test_witness_CallReturnAndPushPopBalance :
    (∃ t, exec (.call 1) ldiStart = .next t ∧ ldiStart.mem.wf ∧ ldiStart.sp ≠ 0 ∧ ldiStart.pc ≤ 253 ∧ t.sp = t.sp ∧
      t.mem.read t.sp = t.mem.read t.sp) ∧
    (∃ t, exec (.push 0) ldiStart = .next t ∧ t.sp = t.sp ∧ t.mem.read t.sp = t.mem.read t.sp) :=
  ⟨⟨_, rfl, by decide, by decide, by decide, rfl, rfl⟩, ⟨_, rfl, rfl, rfl⟩⟩

/-- A push at `sp` = 4 with the next instruction at 3: the stored byte is the next opcode. -/
theorem test_witness_StackWritesAreSeenByTheNextFetch :
    (∃ t, exec (.push 0) (withSp (codeAt 1 [0x45, 0]) 4) = .next t ∧
      BitVec.ofNat 8 (t.pc + 0) = (withSp (codeAt 1 [0x45, 0]) 4).sp - 1) ∧
    (∃ t, exec (.call 0) (withSp ((codeAt 1 [0x50, 0]).setReg 0 3) 4) = .next t ∧
      BitVec.ofNat 8 (t.pc + 0) = (withSp ((codeAt 1 [0x50, 0]).setReg 0 3) 4).sp - 1) :=
  ⟨⟨_, rfl, by decide⟩, ⟨_, rfl, by decide⟩⟩

theorem test_witness_StackHolds244EntriesFromReset :
    (∀ a ∈ List.replicate 244 (7 : Byte), a.toNat < 8) ∧ State.reset.mem.wf ∧ State.reset.sp = 244 ∧
      (List.replicate 244 (7 : Byte)).length = 244 ∧ (0 : Byte).toNat < 8 := by
  refine ⟨fun a ha => ?_, Memory.nil_wf, rfl, List.length_replicate, by decide⟩
  rw [List.eq_of_mem_replicate ha]
  decide

theorem test_witness_AluTouchesOnlyItsResult :
    State.reset.alu .add 0 7 = .ok (State.reset.setReg 0 0) ∧
    State.reset.alu .cmp 0 7 = .ok (State.reset.setFlags ⟨true, false, false⟩) ∧
    State.reset.reg 0 = (State.reset.setReg 1 9).reg 0 := ⟨rfl, rfl, by decide⟩

/-- The same two values (9 and 0) under other indices, in another state. -/
theorem test_witness_AluTouchesOnlyItsResult_other_indices :
    (State.reset.setReg 1 9).reg 1 = (State.reset.setReg 6 9).reg 6 ∧
    (State.reset.setReg 1 9).reg 0 = (State.reset.setReg 6 9).reg 7 ∧
    (State.reset.setReg 1 9).alu .mul 1 0 = .ok ((State.reset.setReg 1 9).setReg 1 0) ∧
    (State.reset.setReg 6 9).alu .mul 6 7 = .ok ((State.reset.setReg 6 9).setReg 6 0) :=
  ⟨by decide, by decide, rfl, rfl⟩

/-- Two states that differ in R3 alone; ADD R0, R1 reads neither's R3 and writes no R3. -/
theorem test_witness_RegistersReadAndWrittenAreTheTables :
    (∀ b ∈ writeFields (.add 0 1), b.toNat ≠ (3 : Reg).val) ∧
    State.reset.setReg 3 9 = { State.reset with regs := (State.reset.setReg 3 9).regs } ∧
    (∀ b ∈ readFields (.add 0 1) State.reset.E, ∀ h : b.toNat < 8,
      (State.reset.setReg 3 9).reg ⟨b.toNat, h⟩ = State.reset.reg ⟨b.toNat, h⟩) := by
  refine ⟨by decide, rfl, fun b hb h => ?_⟩
  refine State.reg_setReg_ne _ _ fun e => ?_
  have : b.toNat = 3 := congrArg Fin.val e
  simp only [readFields, List.mem_cons, List.not_mem_nil, or_false] at hb
  rcases hb with rfl | rfl <;> simp at this

theorem test_witness_FlagsSteerOnlyConditionalJumps :
    Instr.mnemonic (.add 0 1) ∉ [Mnemonic.cmp, .jeq, .jne] ∧
    (Instr.mnemonic (.jeq 0) ∈ [Mnemonic.jeq, .jne] ∧ (⟨false, true, true⟩ : Flags).E = State.reset.E) ∧
    (Instr.mnemonic (.cmp 0 7) = .cmp ∧ (Instr.cmp 0 7).wf = true ∧ (Instr.cmp 0 8).wf = false) ∧
    (7 : Byte).toNat < 8 ∧ (Instr.mnemonic (.jne 8) ∈ [Mnemonic.jeq, .jne] ∧ (Instr.jne 8).wf = false) := by decide

/-- A line at the last fetchable address, a completed step, a run that has ended, and the end itself. -/
theorem test_witness_TraceGivesOneLinePerInstruction :
    (codeAt 253 [0x82, 7, 9]).traceLine opcodeOf = some ⟨253, 0x82, 7, 9, State.reset.regs⟩ ∧
    (cycle opcodeOf ldiStart = .next ldiDone ∧ ldiDone.Unfaulted) ∧
    State.run opcodeOf 1 hltStart = .next hltDone ∧ hltDone.status ≠ .running :=
  ⟨by decide, ⟨cycle_ldiStart, fun f h => by cases h⟩, rfl, by decide⟩

end Sys2Proof.Tests
end

/-! ## The meanings of the instructions as relations

Every instruction either completes with one next state or raises one fault. `Completes` and `Raises` list the cases, one
rule per row of the pseudocode (41_data_move.md to 45_system_io.md), and `exec_next_iff` ties them to `exec`. A claim
about what an instruction changes, or about two states it is run in, is then a case analysis on a rule. -/

namespace Sys2Proof

theorem Instr.firstBadField_of_not_wf {i : Instr} (h : i.wf = false) :
    ∃ field value, i.firstBadField = some (field, value) := by
  obtain ⟨⟨field, value⟩, h⟩ := Option.ne_none_iff_exists'.mp (mt i.wf_iff_firstBadField.mpr (by simp [h]))
  exact ⟨field, value, h⟩

theorem Instr.wf_iff_regFields (i : Instr) : i.wf = true ↔ ∀ f ∈ i.regFields, f.2.toNat < 8 := by
  simp [Instr.wf]

end Sys2Proof

namespace Sys2Proof.Machine

/-- `Completes i s t`: the instruction `i` run in `s` completes, in the state `t`. -/
inductive Completes : Instr → State → State → Prop where
  | hlt (s : State) : Completes .hlt s ((s.setStatus .halted).advance 1)
  | ldi {a b : Byte} (s : State) (ha : a.toNat < 8) : Completes (.ldi a b) s ((s.setReg ⟨a.toNat, ha⟩ b).advance 3)
  | prn {a : Byte} (s : State) (ha : a.toNat < 8) :
      Completes (.prn a) s ((s.emit (s.reg ⟨a.toNat, ha⟩)).advance 2)
  | mul {a b : Byte} (s : State) (ha : a.toNat < 8) (hb : b.toNat < 8) :
      Completes (.mul a b) s
        ((s.setReg ⟨a.toNat, ha⟩ (mulWrap (s.reg ⟨a.toNat, ha⟩) (s.reg ⟨b.toNat, hb⟩))).advance 3)
  | push {a : Byte} (s : State) (ha : a.toNat < 8) (hsp : s.sp ≠ 0) :
      Completes (.push a) s (((s.setSp (s.sp - 1)).memWrite (s.sp - 1) (s.reg ⟨a.toNat, ha⟩)).advance 2)
  | pop {a : Byte} (s : State) (ha : a.toNat < 8) (hsp : s.sp ≠ 255) :
      Completes (.pop a) s (((s.setSp (s.sp + 1)).setReg ⟨a.toNat, ha⟩ (s.mem.read s.sp)).advance 2)
  | add {a b : Byte} (s : State) (ha : a.toNat < 8) (hb : b.toNat < 8) :
      Completes (.add a b) s
        ((s.setReg ⟨a.toNat, ha⟩ (addWrap (s.reg ⟨a.toNat, ha⟩) (s.reg ⟨b.toNat, hb⟩))).advance 3)
  | call {a : Byte} (s : State) (ha : a.toNat < 8) (hsp : s.sp ≠ 0) :
      Completes (.call a) s
        (((s.setSp (s.sp - 1)).memWrite (s.sp - 1) s.returnAddress).setPc (s.reg ⟨a.toNat, ha⟩).toNat)
  | ret (s : State) (hsp : s.sp ≠ 255) : Completes .ret s ((s.setSp (s.sp + 1)).setPc (s.mem.read s.sp).toNat)
  | cmp {a b : Byte} (s : State) (ha : a.toNat < 8) (hb : b.toNat < 8) :
      Completes (.cmp a b) s
        ((s.setFlags (compareFlags (s.reg ⟨a.toNat, ha⟩) (s.reg ⟨b.toNat, hb⟩))).advance 3)
  | jmp {a : Byte} (s : State) (ha : a.toNat < 8) : Completes (.jmp a) s (s.setPc (s.reg ⟨a.toNat, ha⟩).toNat)
  | jeqTaken {a : Byte} (s : State) (ha : a.toNat < 8) (hE : s.E = true) :
      Completes (.jeq a) s (s.setPc (s.reg ⟨a.toNat, ha⟩).toNat)
  | jeqFalls {a : Byte} (s : State) (ha : a.toNat < 8) (hE : s.E = false) : Completes (.jeq a) s (s.advance 2)
  | jneTaken {a : Byte} (s : State) (ha : a.toNat < 8) (hE : s.E = false) :
      Completes (.jne a) s (s.setPc (s.reg ⟨a.toNat, ha⟩).toNat)
  | jneFalls {a : Byte} (s : State) (ha : a.toNat < 8) (hE : s.E = true) : Completes (.jne a) s (s.advance 2)

/-- `Raises i s f`: the instruction `i` run in `s` raises `f` (40_fetch_decode_execute.md R66, 43_stack_call.md R80). -/
inductive Raises : Instr → State → CoreFault → Prop where
  | badRegister {i : Instr} (s : State) {field : RegField} {value : Byte} (h : i.firstBadField = some (field, value)) :
      Raises i s (.badRegister s.pc s.ir field value)
  | pushOverflow {a : Byte} (s : State) (ha : a.toNat < 8) (hsp : s.sp = 0) :
      Raises (.push a) s (.stackOverflow s.pc s.sp)
  | callOverflow {a : Byte} (s : State) (ha : a.toNat < 8) (hsp : s.sp = 0) :
      Raises (.call a) s (.stackOverflow s.pc s.sp)
  | popUnderflow {a : Byte} (s : State) (ha : a.toNat < 8) (hsp : s.sp = 255) :
      Raises (.pop a) s (.stackUnderflow s.pc s.sp)
  | retUnderflow (s : State) (hsp : s.sp = 255) : Raises .ret s (.stackUnderflow s.pc s.sp)

/-! ### The relations are `exec` -/

theorem exec_of_completes {i : Instr} {s t : State} (h : Completes i s t) : exec i s = .next t := by
  cases h with
  | hlt => exact execHlt_eq s
  | ldi _ ha => exact execLdi_eq s ha
  | prn _ ha => exact execPrn_eq s ha
  | mul _ ha hb => exact execMul_eq s ha hb
  | push _ ha hsp => exact execPush_eq s ha hsp
  | pop _ ha hsp => exact execPop_eq s ha hsp
  | add _ ha hb => exact execAdd_eq s ha hb
  | call _ ha hsp => exact execCall_eq s ha hsp
  | ret _ hsp => exact execRet_eq s hsp
  | cmp _ ha hb => exact execCmp_eq s ha hb
  | jmp _ ha => exact execJmp_eq s ha
  | jeqTaken _ ha hE => exact (execJeq_eq s ha).trans (by simp [hE])
  | jeqFalls _ ha hE => exact (execJeq_eq s ha).trans (by simp [hE])
  | jneTaken _ ha hE => exact (execJne_eq s ha).trans (by simp [hE])
  | jneFalls _ ha hE => exact (execJne_eq s ha).trans (by simp [hE])

/-- A handler that checks its one register field first faults on it before anything else. -/
theorem settle_regOperand_of_bad (s : State) {a value : Byte} {field : RegField} {k : Reg → Except CoreFault State}
    (h : [(RegField.a, a)].find? (fun f => decide (7 < f.2.toNat)) = some (field, value)) :
    s.settle (s.regOperand .a a >>= k) = .next (s.raise (.badRegister s.pc s.ir field value)) := by
  obtain ⟨ha, rfl, rfl⟩ : 7 < a.toNat ∧ RegField.a = field ∧ a = value := by simpa using h
  rw [s.regOperand_of_ge .a ha, except_error_bind, State.settle_error]

/-- A handler that checks two register fields faults on the first bad one, `a` before `b`. -/
theorem settle_regOperands_of_bad (s : State) {a b value : Byte} {field : RegField}
    {k : Reg → Reg → Except CoreFault State}
    (h : [(RegField.a, a), (RegField.b, b)].find? (fun f => decide (7 < f.2.toNat)) = some (field, value)) :
    s.settle (s.regOperand .a a >>= fun ra => s.regOperand .b b >>= k ra) =
      .next (s.raise (.badRegister s.pc s.ir field value)) := by
  by_cases ha : 7 < a.toNat
  · exact settle_regOperand_of_bad s (by simpa [ha] using h)
  · obtain ⟨hb, rfl, rfl⟩ : 7 < b.toNat ∧ RegField.b = field ∧ b = value := by simpa [ha] using h
    rw [s.regOperand_of_lt .a (Nat.lt_succ_of_le (Nat.not_lt.mp ha)), except_ok_bind, s.regOperand_of_ge .b hb,
      except_error_bind, State.settle_error]

theorem exec_of_firstBadField {i : Instr} (s : State) {field : RegField} {value : Byte}
    (h : i.firstBadField = some (field, value)) :
    exec i s = .next (s.raise (.badRegister s.pc s.ir field value)) := by
  cases i with
  | hlt | ret => exact nomatch h
  | ldi | prn | push | pop | call | jmp | jeq | jne => exact settle_regOperand_of_bad s h
  | add | mul | cmp => exact settle_regOperands_of_bad s h

theorem exec_of_raises {i : Instr} {s : State} {f : CoreFault} (h : Raises i s f) : exec i s = .next (s.raise f) := by
  cases h with
  | badRegister _ h => exact exec_of_firstBadField s h
  | pushOverflow _ ha hsp =>
    rw [exec, execPush, s.regOperand_of_lt .a ha, except_ok_bind, s.push_of_eq _ hsp]; rfl
  | callOverflow _ ha hsp =>
    rw [exec, execCall, s.regOperand_of_lt .a ha, except_ok_bind, s.push_of_eq _ hsp]; rfl
  | popUnderflow _ ha hsp =>
    rw [exec, execPop, s.regOperand_of_lt .a ha, except_ok_bind, s.pop_of_eq hsp]; rfl
  | retUnderflow _ hsp => rw [exec, execRet, s.pop_of_eq hsp]; rfl

/-- A well-formed instruction runs its handler to the end or to a bound of the stack. -/
theorem completes_or_raises_of_wf {i : Instr} (s : State) (h : i.wf = true) :
    (∃ t, Completes i s t) ∨ ∃ f, Raises i s f := by
  have hf := i.wf_iff_regFields.mp h
  cases i with
  | hlt => exact .inl ⟨_, .hlt s⟩
  | ldi a b => exact .inl ⟨_, .ldi s (hf (.a, a) (.head _))⟩
  | prn a => exact .inl ⟨_, .prn s (hf (.a, a) (.head _))⟩
  | jmp a => exact .inl ⟨_, .jmp s (hf (.a, a) (.head _))⟩
  | mul a b => exact .inl ⟨_, .mul s (hf (.a, a) (.head _)) (hf (.b, b) (.tail _ (.head _)))⟩
  | add a b => exact .inl ⟨_, .add s (hf (.a, a) (.head _)) (hf (.b, b) (.tail _ (.head _)))⟩
  | cmp a b => exact .inl ⟨_, .cmp s (hf (.a, a) (.head _)) (hf (.b, b) (.tail _ (.head _)))⟩
  | push a =>
    have ha := hf (.a, a) (.head _)
    by_cases hsp : s.sp = 0
    · exact .inr ⟨_, .pushOverflow s ha hsp⟩
    · exact .inl ⟨_, .push s ha hsp⟩
  | call a =>
    have ha := hf (.a, a) (.head _)
    by_cases hsp : s.sp = 0
    · exact .inr ⟨_, .callOverflow s ha hsp⟩
    · exact .inl ⟨_, .call s ha hsp⟩
  | pop a =>
    have ha := hf (.a, a) (.head _)
    by_cases hsp : s.sp = 255
    · exact .inr ⟨_, .popUnderflow s ha hsp⟩
    · exact .inl ⟨_, .pop s ha hsp⟩
  | ret =>
    by_cases hsp : s.sp = 255
    · exact .inr ⟨_, .retUnderflow s hsp⟩
    · exact .inl ⟨_, .ret s hsp⟩
  | jeq a =>
    have ha := hf (.a, a) (.head _)
    cases hE : s.E with
    | true => exact .inl ⟨_, .jeqTaken s ha hE⟩
    | false => exact .inl ⟨_, .jeqFalls s ha hE⟩
  | jne a =>
    have ha := hf (.a, a) (.head _)
    cases hE : s.E with
    | true => exact .inl ⟨_, .jneFalls s ha hE⟩
    | false => exact .inl ⟨_, .jneTaken s ha hE⟩

theorem completes_or_raises (i : Instr) (s : State) : (∃ t, Completes i s t) ∨ ∃ f, Raises i s f := by
  cases h : i.wf with
  | true => exact completes_or_raises_of_wf s h
  | false =>
    obtain ⟨field, value, hbad⟩ := Instr.firstBadField_of_not_wf h
    exact .inr ⟨_, .badRegister s hbad⟩

/-- Every instruction answers a next state. -/
theorem exec_next (i : Instr) (s : State) : ∃ t, exec i s = .next t := by
  rcases completes_or_raises i s with ⟨t, ht⟩ | ⟨f, hf⟩
  · exact ⟨t, exec_of_completes ht⟩
  · exact ⟨s.raise f, exec_of_raises hf⟩

/-- Everything an instruction can answer. -/
theorem exec_next_iff {i : Instr} {s t : State} :
    exec i s = .next t ↔ Completes i s t ∨ ∃ f, Raises i s f ∧ t = s.raise f := by
  constructor
  · intro h
    rcases completes_or_raises i s with ⟨u, hu⟩ | ⟨f, hf⟩
    · have : u = t := by simpa [exec_of_completes hu] using h
      exact .inl (this ▸ hu)
    · have : s.raise f = t := by simpa [exec_of_raises hf] using h
      exact .inr ⟨f, hf, this.symm⟩
  · rintro (h | ⟨f, hf, rfl⟩)
    · exact exec_of_completes h
    · exact exec_of_raises hf

/-! ### What a completed instruction changes -/

section
variable {i : Instr} {s t : State}

/-- The registers of the write column of the table in 10_state.md R16 are the only ones written. -/
theorem Completes.reg_eq (h : Completes i s t) {q : Reg} (hq : ∀ b ∈ writeFields i, b.toNat ≠ q) :
    t.reg q = s.reg q := by
  have other {a : Byte} (ha : a.toNat < 8) (hmem : a ∈ writeFields i) : q ≠ ⟨a.toNat, ha⟩ :=
    fun e => hq a hmem (by rw [e])
  cases h with
  | ldi _ ha => exact s.reg_setReg_ne _ (other ha (.head _))
  | mul _ ha _ => exact s.reg_setReg_ne _ (other ha (.head _))
  | add _ ha _ => exact s.reg_setReg_ne _ (other ha (.head _))
  | pop _ ha _ => exact State.reg_setReg_ne _ _ (other ha (.head _))
  | _ => rfl

theorem Completes.regs_ne (h : Completes i s t) (hne : t.regs ≠ s.regs) :
    i.mnemonic ∈ [Mnemonic.ldi, .add, .mul, .pop] := by
  cases h with
  | ldi | add | mul | pop => simp [Instr.mnemonic]
  | _ => exact absurd rfl hne

theorem Completes.mem_ne (h : Completes i s t) (hne : t.mem ≠ s.mem) : i.mnemonic ∈ [Mnemonic.push, .call] := by
  cases h with
  | push | call => simp [Instr.mnemonic]
  | _ => exact absurd rfl hne

theorem Completes.sp_ne (h : Completes i s t) (hne : t.sp ≠ s.sp) :
    i.mnemonic ∈ [Mnemonic.push, .pop, .call, .ret] := by
  cases h with
  | push | pop | call | ret => simp [Instr.mnemonic]
  | _ => exact absurd rfl hne

theorem Completes.sameFlags (h : Completes i s t) (hcmp : i.mnemonic ≠ .cmp) : SameFlags s t := by
  cases h with
  | cmp => exact absurd rfl hcmp
  | _ => exact ⟨rfl, rfl, rfl⟩

theorem Completes.status_ne (h : Completes i s t) (hne : t.status ≠ s.status) : i.mnemonic = .hlt := by
  cases h with
  | hlt => rfl
  | _ => exact absurd rfl hne

theorem Completes.out_ne (h : Completes i s t) (hne : t.out ≠ s.out) : i.mnemonic = .prn := by
  cases h with
  | prn => rfl
  | _ => exact absurd rfl hne

/-- `pc` moves by the length, at most 3, or to the value of a byte. -/
theorem Completes.pc_le (h : Completes i s t) : t.pc ≤ s.pc + 3 ∨ t.pc < 256 := by
  cases h with
  | call | ret | jmp | jeqTaken | jneTaken => exact .inr (BitVec.isLt _)
  | _ => left; simp

end

/-! ### One cycle -/

theorem State.fetchedMnemonic_of_fetchedInstr {om : OpcodeMap} {s : State} {i : Instr} (h : s.fetchedInstr om = .ok i) :
    s.fetchedMnemonic om = some i.mnemonic := by
  simp only [State.fetchedInstr, decodeWith] at h
  split at h
  · exact nomatch h
  · rename_i m hm
    injection h with h
    subst h
    simpa [State.fetchedMnemonic] using hm

/-- A cycle records a fault and nothing else, or completes the instruction it fetched. -/
theorem cycle_raises_or_completes {om : OpcodeMap} {s u : State} (h : cycle om s = .next u) :
    (∃ f, u = s.raise f) ∨
      (s.pc ≤ lastFetchPc ∧ ∃ i, s.fetchedInstr om = .ok i ∧ Completes i s.fetch u) := by
  obtain ⟨-, ⟨-, rfl⟩ | ⟨-, -, rfl⟩ | ⟨hpc, i, t, hd, ht, hc⟩⟩ := cycle_cases h
  · exact .inl ⟨_, rfl⟩
  · exact .inl ⟨_, rfl⟩
  · obtain ⟨f, -, rfl⟩ | ⟨hok, rfl⟩ := hc
    · exact .inl ⟨f, rfl⟩
    · rcases exec_next_iff.mp ht with hcomp | ⟨f, -, rfl⟩
      · exact .inr ⟨hpc, i, hd, hcomp⟩
      · exact absurd rfl (hok f)

/-! ### Runs and loading -/

/-- What the steps of a run keep holds at its end when it holds at its start. -/
theorem StepsWhere.invariant {om : OpcodeMap} {P I : State → Prop} {s t : State} (h : StepsWhere om P s t)
    (hstep : ∀ u v, P u → I u → cycle om u = .next v → I v) (hs : I s) : I t := by
  induction h with
  | refl => exact hs
  | tail _ hP hc ih => exact hstep _ _ hP ih hc

@[simp] theorem State.reset_mem : State.reset.mem = [] := rfl

theorem State.boot_eq_next {program : List Byte} {t : State} (h : State.boot program = .next t) :
    program.length ≤ 256 ∧ t = { State.reset with mem := State.reset.mem.writeAll 0 program } := by
  unfold State.boot at h
  split at h
  · exact nomatch h
  · rename_i hlen
    injection h with h
    exact ⟨Nat.not_lt.mp hlen, h.symm⟩

theorem State.boot_read {program : List Byte} {t : State} (h : State.boot program = .next t) (k : Nat)
    (hk : k < program.length) : t.mem.read (BitVec.ofNat 8 k) = program[k] := by
  obtain ⟨hlen, rfl⟩ := State.boot_eq_next h
  simpa using Memory.read_writeAll_inside Memory.nil_wf 0 program hlen k hk

/-! ### The flags and what reads them -/

theorem compareFlags_oneHot (x y : Byte) :
    compareFlags x y = ⟨true, false, false⟩ ∨ compareFlags x y = ⟨false, true, false⟩ ∨
      compareFlags x y = ⟨false, false, true⟩ := by
  unfold compareFlags
  split
  · exact .inl rfl
  · split
    · exact .inr (.inl rfl)
    · exact .inr (.inr rfl)

theorem cycle_sameFlags {om : OpcodeMap} {s t : State} (h : cycle om s = .next t)
    (hcmp : s.fetchedMnemonic om ≠ some .cmp) : SameFlags s t := by
  rcases cycle_raises_or_completes h with ⟨f, rfl⟩ | ⟨-, i, hi, hcomp⟩
  · exact ⟨rfl, rfl, rfl⟩
  · rw [State.fetchedMnemonic_of_fetchedInstr hi] at hcmp
    exact hcomp.sameFlags fun e => hcmp (congrArg some e)

/-- The flags an instruction does not read come through it unchanged, and nothing else depends on them. -/
theorem Completes.setFlags {i : Instr} {s t : State} (h : Completes i s t) (f : Flags) (hcmp : i.mnemonic ≠ .cmp)
    (hE : i.mnemonic ∈ [Mnemonic.jeq, .jne] → f.E = s.E) : Completes i (s.setFlags f) (t.setFlags f) := by
  cases h with
  | hlt => exact .hlt _
  | ldi _ ha => exact .ldi _ ha
  | prn _ ha => exact .prn _ ha
  | mul _ ha hb => exact .mul _ ha hb
  | push _ ha hsp => exact .push _ ha hsp
  | pop _ ha hsp => exact .pop (s.setFlags f) ha hsp
  | add _ ha hb => exact .add _ ha hb
  | call _ ha hsp => exact .call _ ha hsp
  | ret _ hsp => exact .ret (s.setFlags f) hsp
  | cmp => exact absurd rfl hcmp
  | jmp _ ha => exact .jmp _ ha
  | jeqTaken _ ha h => exact .jeqTaken _ ha ((hE (by simp [Instr.mnemonic])).trans h)
  | jeqFalls _ ha h => exact .jeqFalls _ ha ((hE (by simp [Instr.mnemonic])).trans h)
  | jneTaken _ ha h => exact .jneTaken _ ha ((hE (by simp [Instr.mnemonic])).trans h)
  | jneFalls _ ha h => exact .jneFalls _ ha ((hE (by simp [Instr.mnemonic])).trans h)

theorem Raises.setFlags {i : Instr} {s : State} {e : CoreFault} (h : Raises i s e) (f : Flags) :
    Raises i (s.setFlags f) e := by
  cases h with
  | badRegister _ h => exact .badRegister (s.setFlags f) h
  | pushOverflow _ ha hsp => exact .pushOverflow (s.setFlags f) ha hsp
  | callOverflow _ ha hsp => exact .callOverflow (s.setFlags f) ha hsp
  | popUnderflow _ ha hsp => exact .popUnderflow (s.setFlags f) ha hsp
  | retUnderflow _ hsp => exact .retUnderflow (s.setFlags f) hsp

theorem exec_setFlags_of_raises {i : Instr} {s : State} {e : CoreFault} (h : Raises i s e) (f : Flags) :
    ∃ t, exec i s = .next t ∧ SameFlags s t ∧ exec i (s.setFlags f) = .next (t.setFlags f) :=
  ⟨_, exec_of_raises h, ⟨rfl, rfl, rfl⟩, exec_of_raises (h.setFlags f)⟩

theorem exec_setFlags (i : Instr) (s : State) (f : Flags) (hcmp : i.mnemonic ≠ .cmp)
    (hE : i.mnemonic ∈ [Mnemonic.jeq, .jne] → f.E = s.E) :
    ∃ t, exec i s = .next t ∧ SameFlags s t ∧ exec i (s.setFlags f) = .next (t.setFlags f) := by
  rcases completes_or_raises i s with ⟨t, ht⟩ | ⟨e, he⟩
  · exact ⟨t, exec_of_completes ht, ht.sameFlags hcmp, exec_of_completes (ht.setFlags f hcmp hE)⟩
  · exact exec_setFlags_of_raises he f

theorem exec_setFlags_of_not_wf {i : Instr} (s : State) (f : Flags) (h : i.wf = false) :
    ∃ t, exec i s = .next t ∧ SameFlags s t ∧ exec i (s.setFlags f) = .next (t.setFlags f) := by
  obtain ⟨field, value, hbad⟩ := Instr.firstBadField_of_not_wf h
  exact exec_setFlags_of_raises (.badRegister s hbad) f

/-- A CMP of two registers overwrites the flags whatever they were. -/
theorem exec_cmp_setFlags {i : Instr} (s : State) (f : Flags) (hi : i.mnemonic = .cmp) (hwf : i.wf = true) :
    exec i (s.setFlags f) = exec i s := by
  cases i with
  | cmp a b =>
    have hf := (Instr.cmp a b).wf_iff_regFields.mp hwf
    have ha := hf (.a, a) (.head _)
    have hb := hf (.b, b) (.tail _ (.head _))
    exact (exec_of_completes (.cmp (s.setFlags f) ha hb)).trans (exec_of_completes (.cmp s ha hb)).symm
  | _ => exact nomatch hi

/-- A jump that writes `pc` alone. -/
theorem State.setPc_frame (s : State) (p : Nat) :
    SameRegs s (s.setPc p) [] ∧ SameMem s (s.setPc p) [] ∧ SameRest s (s.setPc p) :=
  ⟨fun _ _ => rfl, fun _ _ => rfl, rfl, ⟨rfl, rfl, rfl⟩, rfl, ⟨rfl, rfl, rfl⟩, rfl⟩

/-- JEQ and JNE each write `pc` alone, and on opposite values of E. -/
theorem exec_jeq_jne {a : Byte} (ha : a.toNat < 8) (s : State) :
    exec (.jeq a) s = .next (s.setPc (if s.E then (s.reg ⟨a.toNat, ha⟩).toNat else s.pc + 2)) ∧
      exec (.jne a) s = .next (s.setPc (if s.E then s.pc + 2 else (s.reg ⟨a.toNat, ha⟩).toNat)) := by
  cases hE : s.E with
  | true => exact ⟨exec_of_completes (.jeqTaken s ha hE), exec_of_completes (.jneFalls s ha hE)⟩
  | false => exact ⟨exec_of_completes (.jeqFalls s ha hE), exec_of_completes (.jneTaken s ha hE)⟩

/-! ### The register file and what reads it -/

/-- `s` with another register file. -/
def State.withRegs (s : State) (R : Vector Byte 8) : State := { s with regs := R }

/-- The register just written reads the same in both states, whatever the other registers hold. -/
theorem State.reg_setReg_agree (s s' : State) {a : Byte} (ha : a.toNat < 8) (v : Byte) :
    ∀ b ∈ [a], ∀ h : b.toNat < 8,
      (s'.setReg ⟨a.toNat, ha⟩ v).reg ⟨b.toNat, h⟩ = (s.setReg ⟨a.toNat, ha⟩ v).reg ⟨b.toNat, h⟩ := by
  simp

/-- The registers an instruction does not read influence the register file alone, and no register it writes. -/
theorem Completes.withRegs {i : Instr} {s t : State} (h : Completes i s t) (R : Vector Byte 8)
    (hread : ∀ b ∈ readFields i s.E, ∀ h : b.toNat < 8, (s.withRegs R).reg ⟨b.toNat, h⟩ = s.reg ⟨b.toNat, h⟩) :
    ∃ Q, Completes i (s.withRegs R) (t.withRegs Q) ∧
      ∀ b ∈ writeFields i, ∀ h : b.toNat < 8, (t.withRegs Q).reg ⟨b.toNat, h⟩ = t.reg ⟨b.toNat, h⟩ := by
  cases h with
  | hlt => exact ⟨R, .hlt (s.withRegs R), nofun⟩
  | @ldi a b _ ha => exact ⟨_, .ldi (s.withRegs R) ha, State.reg_setReg_agree s (s.withRegs R) ha b⟩
  | @prn a _ ha => exact ⟨R, hread a (.head _) ha ▸ .prn (s.withRegs R) ha, nofun⟩
  | @mul a b _ ha hb =>
    have hc := Completes.mul (s.withRegs R) ha hb
    rw [hread a (.head _) ha, hread b (.tail _ (.head _)) hb] at hc
    exact ⟨_, hc, State.reg_setReg_agree s (s.withRegs R) ha _⟩
  | @push a _ ha hsp => exact ⟨R, hread a (.head _) ha ▸ .push (s.withRegs R) ha hsp, nofun⟩
  | @pop a _ ha hsp =>
    exact ⟨_, .pop (s.withRegs R) ha hsp, State.reg_setReg_agree s (s.withRegs R) ha (s.mem.read s.sp)⟩
  | @add a b _ ha hb =>
    have hc := Completes.add (s.withRegs R) ha hb
    rw [hread a (.head _) ha, hread b (.tail _ (.head _)) hb] at hc
    exact ⟨_, hc, State.reg_setReg_agree s (s.withRegs R) ha _⟩
  | @call a _ ha hsp => exact ⟨R, hread a (.head _) ha ▸ .call (s.withRegs R) ha hsp, nofun⟩
  | ret _ hsp => exact ⟨R, .ret (s.withRegs R) hsp, nofun⟩
  | @cmp a b _ ha hb =>
    have hra := hread a (.head _) ha
    have hrb := hread b (.tail _ (.head _)) hb
    exact ⟨R, hra ▸ hrb ▸ .cmp (s.withRegs R) ha hb, nofun⟩
  | @jmp a _ ha => exact ⟨R, hread a (.head _) ha ▸ .jmp (s.withRegs R) ha, nofun⟩
  | @jeqTaken a _ ha hE =>
    have hra := hread a (by simp [readFields, hE]) ha
    exact ⟨R, hra ▸ .jeqTaken (s.withRegs R) ha hE, nofun⟩
  | jeqFalls _ ha hE => exact ⟨R, .jeqFalls (s.withRegs R) ha hE, nofun⟩
  | @jneTaken a _ ha hE =>
    have hra := hread a (by simp [readFields, hE]) ha
    exact ⟨R, hra ▸ .jneTaken (s.withRegs R) ha hE, nofun⟩
  | jneFalls _ ha hE => exact ⟨R, .jneFalls (s.withRegs R) ha hE, nofun⟩

theorem Raises.withRegs {i : Instr} {s : State} {f : CoreFault} (h : Raises i s f) (R : Vector Byte 8) :
    Raises i (s.withRegs R) f := by
  cases h with
  | badRegister _ h => exact .badRegister (s.withRegs R) h
  | pushOverflow _ ha hsp => exact .pushOverflow (s.withRegs R) ha hsp
  | callOverflow _ ha hsp => exact .callOverflow (s.withRegs R) ha hsp
  | popUnderflow _ ha hsp => exact .popUnderflow (s.withRegs R) ha hsp
  | retUnderflow _ hsp => exact .retUnderflow (s.withRegs R) hsp

/-! ### The statements of 10_state.md -/

/-- Settles O1: the reset values by the reset laws, the unwritten register as an invariant of the run, the push by the
rule for PUSH and the law for a read after a write. -/
theorem resetLeavesTheSpecifiedState : Obligations.ResetLeavesTheSpecifiedState := by
  refine ⟨⟨State.reset_reg, rfl, rfl, rfl, rfl, rfl, rfl, Memory.read_nil, rfl⟩, ?_, ?_⟩
  · intro om r program s t hboot hrun
    refine hrun.invariant (I := fun u => u.reg r = 0) (fun u v hP hr hc => ?_) ?_
    · rcases cycle_raises_or_completes hc with ⟨f, rfl⟩ | ⟨-, i, hi, hcomp⟩
      · exact hr
      · exact (hcomp.reg_eq (hP i hi)).trans hr
    · rw [(State.boot_eq_next hboot).2]
      exact State.reset_reg r
  · intro a ha s hm hsp
    have hsp244 : s.sp = 244 := hsp
    refine ⟨_, exec_of_completes (.push s ha (by simp [hsp244])), by simp [hsp244], ?_, ?_⟩
    · simpa [hsp244] using Memory.read_write_same hm 243 _
    · simp [hsp244, Memory.read_write_ne]

/-- Settles O15: the reset values by the reset and boot laws, the writers from what a completed instruction changes. -/
theorem eachFieldHasItsResetValueAndWriters : Obligations.EachFieldHasItsResetValueAndWriters := by
  refine ⟨⟨Memory.read_nil, State.reset_reg, rfl, rfl, rfl, rfl, rfl, rfl, rfl, ?_⟩, ?_, ?_⟩
  · intro program t hboot
    refine ⟨?_, State.boot_read hboot⟩
    rw [(State.boot_eq_next hboot).2]
  · intro om s t hc hinv
    rcases cycle_raises_or_completes hc with ⟨f, rfl⟩ | ⟨hpc, i, -, hcomp⟩
    · exact hinv.pc_le
    · have hle := hcomp.pc_le
      rw [State.fetch_pc] at hle
      rw [lastFetchPc] at hpc
      omega
  · intro om s t hc
    rcases cycle_raises_or_completes hc with ⟨f, rfl⟩ | ⟨-, i, hi, hcomp⟩
    · simp [State.Crashed, SameFlags]
    · rw [State.fetchedMnemonic_of_fetchedInstr hi]
      refine ⟨fun h => ?_, fun h => ?_, fun h => ?_, fun h => ?_, fun h => ?_, fun h => ?_⟩
      · simpa using hcomp.mem_ne h
      · simpa using hcomp.regs_ne h
      · simpa using hcomp.sp_ne h
      · by_contra hne
        exact h (hcomp.sameFlags (by simpa using hne))
      · exact .inl (congrArg some (hcomp.status_ne h))
      · exact congrArg some (hcomp.out_ne h)

/-- Settles O33: CMP writes the flags of a comparison, and without a CMP the flags of reset are an invariant. -/
theorem exactlyOneFlagAfterCmpNoneBefore : Obligations.ExactlyOneFlagAfterCmpNoneBefore := by
  constructor
  · intro a b s ha hb
    refine ⟨_, exec_of_completes (.cmp s ha hb), ?_⟩
    rcases compareFlags_oneHot (s.reg ⟨a.toNat, ha⟩) (s.reg ⟨b.toNat, hb⟩) with h | h | h <;> simp [h]
  · intro om program s t hboot hrun
    refine hrun.invariant (I := fun u => u.E = false ∧ u.L = false ∧ u.G = false) (fun u v hP hI hc => ?_) ?_
    · obtain ⟨hE, hL, hG⟩ := cycle_sameFlags hc hP
      rwa [hE, hL, hG]
    · rw [(State.boot_eq_next hboot).2]
      exact ⟨rfl, rfl, rfl⟩

/-- Settles O47: the write column by what a completed instruction leaves of the register file, the read column by running
it on another register file. -/
theorem registersReadAndWrittenAreTheTables : Obligations.RegistersReadAndWrittenAreTheTables := by
  constructor
  · intro i s t q hexec hq
    rcases exec_next_iff.mp hexec with hcomp | ⟨f, -, rfl⟩
    · exact hcomp.reg_eq hq
    · rfl
  · intro i s s' hs' hread
    replace hs' : s' = s.withRegs s'.regs := hs'
    rw [hs'] at hread ⊢
    rcases completes_or_raises i s with ⟨t, ht⟩ | ⟨f, hf⟩
    · obtain ⟨Q, ht', hwrite⟩ := ht.withRegs s'.regs hread
      exact ⟨t, _, exec_of_completes ht, exec_of_completes ht', rfl, fun _ => hwrite⟩
    · exact ⟨_, _, exec_of_raises hf, exec_of_raises (hf.withRegs s'.regs), rfl, fun h => absurd rfl (h f)⟩

/-- Settles O48: flags an instruction does not read come through it, and a CMP of registers overwrites them. -/
theorem flagsSteerOnlyConditionalJumps : Obligations.FlagsSteerOnlyConditionalJumps := by
  refine ⟨fun i s f hi => ?_, fun i s f hi hE => ?_, fun i s f hi => ?_, fun a ha s => ?_, fun i s f _ hwf => ?_⟩
  · simp only [List.mem_cons, not_or] at hi
    obtain ⟨hcmp, hjeq, hjne, -⟩ := hi
    exact exec_setFlags i s f hcmp (by simp [hjeq, hjne])
  · exact exec_setFlags i s f (fun e => by simp [e] at hi) (fun _ => hE)
  · cases hwf : i.wf with
    | true =>
      obtain ⟨t, ht⟩ := exec_next i s
      exact ⟨t, ht, fun _ => (exec_cmp_setFlags s f hi hwf).trans ht, nofun⟩
    | false =>
      obtain ⟨t, ht, hflags, hset⟩ := exec_setFlags_of_not_wf s f hwf
      exact ⟨t, ht, nofun, fun _ => ⟨hflags, hset⟩⟩
  · obtain ⟨hjeq, hjne⟩ := exec_jeq_jne ha s
    obtain ⟨tregs, tmem, trest⟩ := s.setPc_frame (if s.E then (s.reg ⟨a.toNat, ha⟩).toNat else s.pc + 2)
    exact ⟨_, _, hjeq, hjne, rfl, rfl, tregs, tmem, trest, s.setPc_frame _⟩
  · exact exec_setFlags_of_not_wf s f hwf

end Sys2Proof.Machine

/-! ## Decoding a byte sequence

The opcode byte at its head alone says how many bytes `decodeBytes` takes, and that it takes none when the byte is no
opcode (30_encoding.md R50). -/

namespace Sys2Proof

theorem Mnemonic.length_pos (m : Mnemonic) : 0 < m.length := by cases m <;> decide

theorem decodeWith_of_lookupOpcode_none {om : OpcodeMap} {ir : Byte} (h : lookupOpcode om ir = none) (a b : Byte) :
    decodeWith om ir a b = .error (.unsupportedOpcode ir) := by
  simp [decodeWith, h]

theorem decodeBytes_of_lookupOpcode_none {om : OpcodeMap} {ir : Byte} (h : lookupOpcode om ir = none)
    (bytes : List Byte) : decodeBytes om (ir :: bytes) = .error (.unsupportedOpcode ir) := by
  simp [decodeBytes, h]

/-- When a recognised opcode decodes, and to what. -/
theorem decodeBytes_eq_ok_iff {om : OpcodeMap} {ir : Byte} {m : Mnemonic} (hm : lookupOpcode om ir = some m)
    {bytes rest : List Byte} {i : Instr} :
    decodeBytes om (ir :: bytes) = .ok (i, rest) ↔
      m.length ≤ bytes.length + 1 ∧ assemble m (bytes.getD 0 0) (bytes.getD 1 0) = i ∧
        bytes.drop (m.length - 1) = rest := by
  by_cases hlen : bytes.length + 1 < m.length
  · simp [decodeBytes, hm, hlen, Nat.not_le.mpr hlen]
  · simp [decodeBytes, hm, hlen, Nat.not_lt.mp hlen]

/-- The bytes taken are the length of the opcode's mnemonic. -/
theorem length_of_decodeBytes_eq_ok {om : OpcodeMap} {ir : Byte} {m : Mnemonic} (hm : lookupOpcode om ir = some m)
    {bytes rest : List Byte} {i : Instr} (h : decodeBytes om (ir :: bytes) = .ok (i, rest)) :
    bytes.length + 1 = rest.length + m.length := by
  obtain ⟨hlen, -, rfl⟩ := (decodeBytes_eq_ok_iff hm).mp h
  have hpos := m.length_pos
  rw [List.length_drop]
  omega

end Sys2Proof

namespace Sys2Proof.Machine

/-- A core that fetches a byte outside the opcode map records it and writes nothing else. -/
theorem cycle_of_lookupOpcode_none {om : OpcodeMap} {s : State} (hs : s.CanFetch)
    (h : lookupOpcode om (s.byteAtPc 0) = none) :
    cycle om s = .next (s.raise (.unsupportedOpcode s.pc (s.byteAtPc 0))) :=
  cycle_of_decode_error om hs.1 hs.2 (decodeWith_of_lookupOpcode_none h _ _)

/-- Settles O21: the length by what `decodeBytes` answers for a recognised opcode, the fault by the cycle's rule for an
unknown one. -/
theorem lengthComesFromTheOpcodeAlone : Obligations.LengthComesFromTheOpcodeAlone := by
  refine ⟨fun om ir m hm bytes rest i h => length_of_decodeBytes_eq_ok hm h, by decide, fun om ir hnone => ?_⟩
  refine ⟨decodeBytes_of_lookupOpcode_none hnone, fun s hs hir => ?_⟩
  subst hir
  exact ⟨_, cycle_of_lookupOpcode_none hs hnone, rfl⟩

end Sys2Proof.Machine

/-! ## Runs as repeated single steps

A run takes one cycle at a time while the core is Running (40_fetch_decode_execute.md R71), which always has one to take
(R60), and stays where it is once the core is not. -/

namespace Sys2Proof.Machine

theorem State.commit_next (before t : State) : ∃ u, before.commit (.next t) = .next u := by
  by_cases h : ∃ f, t.status = .faulted f
  · obtain ⟨f, hf⟩ := h
    exact ⟨_, before.commit_next_of_faulted hf⟩
  · exact ⟨t, before.commit_next_of_not_faulted (not_exists.mp h)⟩

/-- A Running core always has a next state: each stage of the cycle answers one. -/
theorem cycle_next_of_running (om : OpcodeMap) {s : State} (hr : s.status = .running) : ∃ t, cycle om s = .next t := by
  by_cases hpc : lastFetchPc < s.pc
  · exact ⟨_, cycle_of_fetchOutOfRange om hr hpc⟩
  · have hle := Nat.not_lt.mp hpc
    cases hd : s.fetchedInstr om with
    | error e => exact ⟨_, cycle_of_decode_error om hr hle hd⟩
    | ok i =>
      obtain ⟨t, ht⟩ := exec_next i s.fetch
      rw [cycle_of_decode_ok om hr hle hd, ht]
      exact s.commit_next t

theorem StepsWhere.head {om : OpcodeMap} {P : State → Prop} {s t u : State} (hP : P s) (hc : cycle om s = .next t)
    (h : StepsWhere om P t u) : StepsWhere om P s u := by
  induction h with
  | refl => exact .tail (.refl s) hP hc
  | tail _ hPu hcu ih => exact .tail ih hPu hcu

theorem State.run_of_ended (om : OpcodeMap) (n : Nat) {s : State} (h : s.status ≠ .running) :
    State.run om n s = .next s := by
  cases n with
  | zero => rfl
  | succ n =>
    cases e : s.status with
    | running => exact absurd e h
    | halted => simp [State.run, e]
    | faulted f => simp [State.run, e]

/-- Everything a run of at least one step that answers a next state did first. -/
theorem State.run_succ_cases {om : OpcodeMap} {n : Nat} {s t : State} (h : State.run om (n + 1) s = .next t) :
    (s.status ≠ .running ∧ t = s) ∨ ∃ u, cycle om s = .next u ∧ State.run om n u = .next t := by
  by_cases hs : s.status = .running
  · obtain ⟨u, hu⟩ := cycle_next_of_running om hs
    exact .inr ⟨u, hu, State.run_succ om n hu ▸ h⟩
  · rw [State.run_of_ended om _ hs] at h
    injection h with h
    exact .inl ⟨hs, h.symm⟩

theorem State.run_reaches {om : OpcodeMap} {n : Nat} {s t : State} (h : State.run om n s = .next t) :
    Reaches om s t := by
  induction n generalizing s with
  | zero =>
    injection h with h
    exact h ▸ .refl s
  | succ n ih =>
    obtain ⟨-, rfl⟩ | ⟨u, hu, hrun⟩ := State.run_succ_cases h
    · exact .refl t
    · exact .head trivial hu (ih hrun)

theorem State.run_add {om : OpcodeMap} {j : Nat} (k : Nat) {s t : State} (h : State.run om j s = .next t) :
    State.run om (j + k) s = State.run om k t := by
  induction j generalizing s with
  | zero =>
    injection h with h
    rw [h, Nat.zero_add]
  | succ j ih =>
    obtain ⟨hs, rfl⟩ | ⟨u, hu, hrun⟩ := State.run_succ_cases h
    · rw [State.run_of_ended om _ hs, State.run_of_ended om _ hs]
    · rw [Nat.succ_add, State.run_succ om _ hu, ih hrun]

/-- Settles O17: a run unfolds by one cycle while the core is Running, stays put after the end, and composes by induction
on its first part. -/
theorem runIsSingleStepsRepeated : Obligations.RunIsSingleStepsRepeated := by
  refine ⟨fun s => rfl, fun om n s => ⟨fun hs => State.run_of_ended om n hs, fun hs => ?_⟩,
    fun om j k s t h => ⟨State.run_reaches h, State.run_add k h⟩⟩
  obtain ⟨t, ht⟩ := cycle_next_of_running om hs
  exact ⟨t, ht, State.run_succ om n ht⟩

end Sys2Proof.Machine

/-! ## The opcode match

The decoder finds exactly the mnemonics the opcode map names (40_fetch_decode_execute.md R64), and none for a byte
outside the map (R65). -/

namespace Sys2Proof

theorem lookupOpcode_eq_none_iff {om : OpcodeMap} {ir : Byte} : lookupOpcode om ir = none ↔ ∀ m, om m ≠ ir := by
  refine ⟨lookupOpcode_none, fun h => ?_⟩
  cases hm : lookupOpcode om ir with
  | none => rfl
  | some m => exact absurd (lookupOpcode_sound hm) (h m)

/-- Injectivity of the map makes the first match the only one. -/
theorem lookupOpcode_eq_some_iff {om : OpcodeMap} (hom : om.Injective) {ir : Byte} {m : Mnemonic} :
    lookupOpcode om ir = some m ↔ om m = ir := by
  refine ⟨lookupOpcode_sound, fun h => ?_⟩
  cases hn : lookupOpcode om ir with
  | none => exact absurd h (lookupOpcode_none hn m)
  | some n => rw [hom n m ((lookupOpcode_sound hn).trans h.symm)]

theorem lookupOpcode_of_decodeWith {om : OpcodeMap} {ir a b : Byte} {i : Instr} (h : decodeWith om ir a b = .ok i) :
    lookupOpcode om ir = some i.mnemonic := by
  cases hm : lookupOpcode om ir with
  | none => exact nomatch (decodeWith_of_lookupOpcode_none hm a b).symm.trans h
  | some m =>
    simp only [decodeWith, hm, Except.ok.injEq] at h
    rw [← h, assemble_mnemonic]

/-- Settles O20: a match by `lookupOpcode_eq_some_iff`, its uniqueness by injectivity of the opcode map. -/
theorem opcodeMatchIsExact : Obligations.OpcodeMatchIsExact := by
  refine ⟨fun om ir m hom => lookupOpcode_eq_some_iff hom, fun om ir a b i hom h => ?_⟩
  have hir : om i.mnemonic = ir := lookupOpcode_sound (lookupOpcode_of_decodeWith h)
  exact ⟨hir, fun m hm => hom m i.mnemonic (hm.trans hir.symm)⟩

end Sys2Proof

namespace Sys2Proof.Machine

/-- Settles O24: a byte outside the map's image is looked up in vain, and the cycle then only raises. -/
theorem unknownOpcodeFaultsAndWritesNothing : Obligations.UnknownOpcodeFaultsAndWritesNothing :=
  fun _ _ hs hm => cycle_of_lookupOpcode_none hs (lookupOpcode_eq_none_iff.mpr hm)

end Sys2Proof.Machine

/-! ## The ALU

The three operations of the ALU have two results: a byte, written to the register `a` by ADD and MUL, and the flags,
written by CMP (42_alu.md R73). Each is a function of two register values, and nothing else is written. -/

namespace Sys2Proof.Machine

theorem State.sameRegs_setReg (s : State) (r : Reg) (v : Byte) : SameRegs s (s.setReg r v) [r] :=
  fun _ hq => s.reg_setReg_ne v (by simpa using hq)

/-- An instruction that writes one register and advances. -/
theorem State.setReg_advance_frame (s : State) (r : Reg) (v : Byte) (n : Nat) :
    SameRegs s ((s.setReg r v).advance n) [r] ∧ SameMem s ((s.setReg r v).advance n) [] ∧
      SameRest s ((s.setReg r v).advance n) :=
  ⟨s.sameRegs_setReg r v, fun _ _ => rfl, rfl, ⟨rfl, rfl, rfl⟩, rfl, ⟨rfl, rfl, rfl⟩, rfl⟩

/-- Settles O31: the value by the arithmetic laws of `addWrap` and `mulWrap`, the frame as that of one register write. -/
theorem addAndMulWrapModulo256 : Obligations.AddAndMulWrapModulo256 := by
  intro a b ha hb s
  refine ⟨⟨_, exec_of_completes (.add s ha hb), ?_, rfl, s.setReg_advance_frame _ _ 3⟩,
    ⟨_, exec_of_completes (.mul s ha hb), ?_, rfl, s.setReg_advance_frame _ _ 3⟩⟩
  · rw [State.reg_advance, State.reg_setReg_same, addWrap_toNat]
  · rw [State.reg_advance, State.reg_setReg_same, mulWrap_toNat]

/-- The byte that the ALU writes for MUL and for ADD, from the two register values. -/
def aluByte (op : Mnemonic) (x y : Byte) : Byte := if op = .mul then mulWrap x y else addWrap x y

/-- Everything the ALU can answer. -/
theorem State.alu_eq_ok_iff {op : Mnemonic} {ra rb : Reg} {s t : State} :
    s.alu op ra rb = .ok t ↔
      (op ∈ [Mnemonic.add, .mul] ∧ t = s.setReg ra (aluByte op (s.reg ra) (s.reg rb))) ∨
        (op = .cmp ∧ t = s.setFlags (compareFlags (s.reg ra) (s.reg rb))) := by
  cases op with
  | add | mul | cmp => simp [State.alu, aluByte, eq_comm]
  | _ => simp [State.alu]

/-- The operations the ALU has. -/
theorem State.alu_ok_iff (op : Mnemonic) (ra rb : Reg) (s : State) :
    (∃ t, s.alu op ra rb = .ok t) ↔ op ∈ [Mnemonic.add, .mul, .cmp] := by
  simp [State.alu_eq_ok_iff, exists_or, or_assoc]

theorem State.alu_frame {op : Mnemonic} {ra rb : Reg} {s t : State} (h : s.alu op ra rb = .ok t) :
    t.pc = s.pc ∧ t.sp = s.sp ∧ t.mem = s.mem ∧ t.status = s.status ∧ t.out = s.out ∧ SameLatches s t ∧
      (op ≠ .cmp → SameFlags s t ∧ SameRegs s t [ra]) ∧ (op = .cmp → SameRegs s t []) := by
  obtain ⟨hop, rfl⟩ | ⟨rfl, rfl⟩ := State.alu_eq_ok_iff.mp h
  · exact ⟨rfl, rfl, rfl, rfl, rfl, ⟨rfl, rfl, rfl⟩, fun _ => ⟨⟨rfl, rfl, rfl⟩, s.sameRegs_setReg ra _⟩,
      fun e => by simp [e] at hop⟩
  · exact ⟨rfl, rfl, rfl, rfl, rfl, ⟨rfl, rfl, rfl⟩, fun hne => absurd rfl hne, fun _ _ _ => rfl⟩

/-- What ADD and MUL leave in `x[ra]` is a function of the two register values. -/
theorem State.alu_reg {op : Mnemonic} {ra rb : Reg} {s t : State} (h : s.alu op ra rb = .ok t) (hop : op ≠ .cmp) :
    t.reg ra = aluByte op (s.reg ra) (s.reg rb) := by
  obtain ⟨-, rfl⟩ | ⟨hcmp, -⟩ := State.alu_eq_ok_iff.mp h
  · exact s.reg_setReg_same ra _
  · exact absurd hcmp hop

/-- What CMP leaves in the flags is a function of the two register values. -/
theorem State.alu_flags {ra rb : Reg} {s t : State} (h : s.alu .cmp ra rb = .ok t) :
    Flags.mk t.E t.L t.G = compareFlags (s.reg ra) (s.reg rb) := by
  obtain ⟨hop, -⟩ | ⟨-, rfl⟩ := State.alu_eq_ok_iff.mp h
  · simp at hop
  · rfl

/-- Settles O46: the operations and the frame by what the ALU answers, the dependence because both results are functions
of the two register values, the use by the rules for ADD, MUL and CMP. -/
theorem aluTouchesOnlyItsResult : Obligations.AluTouchesOnlyItsResult := by
  refine ⟨State.alu_ok_iff, fun _ _ _ _ _ => State.alu_frame, ?_, fun a b ha hb s => ?_⟩
  · intro op ra rb ra' rb' s s' t t' hra hrb h h'
    constructor
    · intro hop
      rw [State.alu_reg h hop, State.alu_reg h' hop, hra, hrb]
    · rintro rfl
      have hflags : Flags.mk t'.E t'.L t'.G = Flags.mk t.E t.L t.G := by
        rw [State.alu_flags h, State.alu_flags h', hra, hrb]
      exact Flags.mk.inj hflags
  · exact ⟨⟨_, rfl, exec_of_completes (.add s ha hb)⟩, ⟨_, rfl, exec_of_completes (.mul s ha hb)⟩,
      ⟨_, rfl, exec_of_completes (.cmp s ha hb)⟩⟩

end Sys2Proof.Machine

/-! ## The stack

PUSH and CALL leave one byte on top of the stack, and POP and RET take the byte on top, by whichever of the two it came
there (43_stack_call.md R79). `Pushed` says what the first two have in common; what the last two do follows from it. -/

namespace Sys2Proof.Machine

/-- `Pushed s v t`: the state `t` has the stack of `s` with the one byte `v` more, stored at the new `sp`. -/
structure Pushed (s : State) (v : Byte) (t : State) : Prop where
  sp : t.sp.toNat + 1 = s.sp.toNat
  top : t.mem.read t.sp = v
  mem : SameMem s t [t.sp]

/-- A write at the decremented `sp` is a push, whatever else the instruction does to the state. -/
theorem pushed_of_write {s t : State} {v : Byte} (hm : s.mem.wf) (hsp : s.sp ≠ 0) (htsp : t.sp = s.sp - 1)
    (htmem : t.mem = s.mem.write (s.sp - 1) v) : Pushed s v t where
  sp := by
    rw [htsp]
    bv_omega
  top := by rw [htsp, htmem, Memory.read_write_same hm]
  mem a ha := by
    rw [htmem]
    exact Memory.read_write_ne _ (by simpa [htsp] using ha) v

theorem exec_push_pushed {a : Byte} (ha : a.toNat < 8) {s : State} (hm : s.mem.wf) (hsp : s.sp ≠ 0) :
    ∃ t, exec (.push a) s = .next t ∧ Pushed s (s.reg ⟨a.toNat, ha⟩) t :=
  ⟨_, exec_of_completes (.push s ha hsp), pushed_of_write hm hsp rfl rfl⟩

theorem exec_call_pushed {a : Byte} (ha : a.toNat < 8) {s : State} (hm : s.mem.wf) (hsp : s.sp ≠ 0) :
    ∃ t, exec (.call a) s = .next t ∧ Pushed s s.returnAddress t :=
  ⟨_, exec_of_completes (.call s ha hsp), pushed_of_write hm hsp rfl rfl⟩

section
variable {s t : State} {v : Byte}

/-- A byte that was pushed is below the upper bound of the stack, so that it can be popped. -/
theorem Pushed.sp_ne (h : Pushed s v t) : t.sp ≠ 255 := by
  have hsp := h.sp
  bv_omega

theorem Pushed.sp_add_one (h : Pushed s v t) : t.sp + 1 = s.sp := by
  have hsp := h.sp
  bv_omega

theorem Pushed.exec_pop (h : Pushed s v t) {b : Byte} (hb : b.toNat < 8) :
    ∃ u, exec (.pop b) t = .next u ∧ u.reg ⟨b.toNat, hb⟩ = v ∧ u.sp = s.sp :=
  ⟨_, exec_of_completes (.pop t hb h.sp_ne), by simp [h.top], h.sp_add_one⟩

theorem Pushed.exec_ret (h : Pushed s v t) : ∃ u, exec .ret t = .next u ∧ u.pc = v.toNat ∧ u.sp = s.sp :=
  ⟨_, exec_of_completes (.ret t h.sp_ne), by simp [h.top], h.sp_add_one⟩

end

/-- Where a CALL can be fetched, its return address fits the cell (R83). -/
theorem State.returnAddress_toNat {s : State} (hpc : s.pc ≤ lastFetchPc) : s.returnAddress.toNat = s.pc + 2 := by
  have hlt : s.pc + 2 < 2 ^ 8 := by
    rw [lastFetchPc] at hpc
    omega
  exact (BitVec.toNat_ofNat _ _).trans (Nat.mod_eq_of_lt hlt)

/-- Settles O43: PUSH and CALL are pushes of a byte, POP and RET take any pushed byte, and the return address is exact. -/
theorem stackHoldsDataAndReturnAddressesAlike : Obligations.StackHoldsDataAndReturnAddressesAlike := by
  intro a b ha hb s hm hsp hpc
  constructor
  · obtain ⟨t, ht, hpush⟩ := exec_push_pushed ha hm hsp
    exact ⟨t, ht, hpush.sp, hpush.top, hpush.mem, hpush.exec_pop hb, hpush.exec_ret⟩
  · obtain ⟨t, ht, hpush⟩ := exec_call_pushed ha hm hsp
    have hret : s.returnAddress.toNat = s.pc + 2 := State.returnAddress_toNat hpc
    rw [← hret]
    obtain ⟨u, hu, hreg, hspu⟩ := hpush.exec_pop hb
    exact ⟨t, ht, hpush.sp, congrArg BitVec.toNat hpush.top, hpush.mem, ⟨u, hu, congrArg BitVec.toNat hreg, hspu⟩,
      hpush.exec_ret⟩

end Sys2Proof.Machine

/-! ## The end of a run

A core that is not Running has no next state (40_fetch_decode_execute.md R69), so that nothing is reached from it but
itself. HLT brings a core there (60_exceptions.md R107). -/

namespace Sys2Proof.Machine

theorem cycle_ne_next_of_ended (om : OpcodeMap) {s : State} (h : s.status ≠ .running) (t : State) :
    cycle om s ≠ .next t :=
  fun hc => h (cycle_cases hc).1

theorem Reaches.eq_of_ended {om : OpcodeMap} {s t : State} (hr : Reaches om s t) (h : s.status ≠ .running) : t = s := by
  refine StepsWhere.invariant hr (I := fun u => u = s) (fun u v _ hu hc => ?_) rfl
  rw [hu] at hc
  exact absurd hc (cycle_ne_next_of_ended om h v)

/-- Settles O8: the status by the rule for HLT, the rest because a Halted core is not Running. -/
theorem haltedCoreStaysHalted : Obligations.HaltedCoreStaysHalted := by
  refine ⟨fun s => ⟨_, exec_of_completes (.hlt s), rfl⟩, fun om s hs => ?_⟩
  have hended : s.status ≠ .running := by simp [hs]
  exact ⟨cycle_ne_next_of_ended om hended, fun t hr => hr.eq_of_ended hended⟩

end Sys2Proof.Machine

/-! ## Decode against encode

The operand bytes of a decoded instruction are the bytes the decoder took after the opcode, so that decoding and
encoding undo each other (30_encoding.md R49, 40_fetch_decode_execute.md R64). -/

namespace Sys2Proof

theorem Mnemonic.length_le (m : Mnemonic) : m.length ≤ 3 := by cases m <;> decide

theorem operandBytes_assemble (m : Mnemonic) (a b : Byte) :
    (assemble m a b).operandBytes = [a, b].take (m.length - 1) := by
  cases m <;> rfl

/-- The two bytes the decoder looks at stand for those it takes. -/
theorem take_getD_pair (l : List Byte) {k : Nat} (hk : k ≤ 2) (hlen : k ≤ l.length) :
    [l.getD 0 0, l.getD 1 0].take k = l.take k := by
  match k, l with
  | 0, _ => rfl
  | 1, _ :: _ => rfl
  | 2, _ :: _ :: _ => rfl

theorem operandBytes_assemble_getD {m : Mnemonic} {l : List Byte} (hlen : m.length ≤ l.length + 1) :
    (assemble m (l.getD 0 0) (l.getD 1 0)).operandBytes = l.take (m.length - 1) := by
  have hle := m.length_le
  rw [operandBytes_assemble, take_getD_pair l (by omega) (by omega)]

theorem decodeBytes_encodeWith {om : OpcodeMap} (hom : om.Injective) (i : Instr) (rest : List Byte) :
    decodeBytes om (encodeWith om i ++ rest) = .ok (i, rest) := by
  have hlen := operandBytes_length i
  have hle : i.mnemonic.length ≤ (i.operandBytes ++ rest).length + 1 := by
    rw [List.length_append]
    omega
  exact (decodeBytes_eq_ok_iff ((lookupOpcode_eq_some_iff hom).mpr rfl)).mpr
    ⟨hle, assemble_operandBytes i rest, List.drop_left' (by omega)⟩

theorem eq_encodeWith_of_decodeBytes {om : OpcodeMap} {bytes rest : List Byte} {i : Instr}
    (h : decodeBytes om bytes = .ok (i, rest)) : bytes = encodeWith om i ++ rest := by
  cases bytes with
  | nil => exact nomatch h
  | cons ir bytes =>
    cases hm : lookupOpcode om ir with
    | none => exact nomatch (decodeBytes_of_lookupOpcode_none hm bytes).symm.trans h
    | some m =>
      obtain ⟨hlen, rfl, rfl⟩ := (decodeBytes_eq_ok_iff hm).mp h
      rw [encodeWith, assemble_mnemonic, lookupOpcode_sound hm, operandBytes_assemble_getD hlen, List.cons_append,
        List.take_append_drop]

theorem decodeWith_of_lookupOpcode {om : OpcodeMap} {ir : Byte} {m : Mnemonic} (hm : lookupOpcode om ir = some m)
    (a b : Byte) : decodeWith om ir a b = .ok (assemble m a b) := by
  simp [decodeWith, hm]

/-- Three bytes are enough for every format, so the machine's decoder answers what that of byte sequences does. -/
theorem decodeWith_eq_ok_iff_decodeBytes {om : OpcodeMap} {ir a b : Byte} {i : Instr} :
    decodeWith om ir a b = .ok i ↔ ∃ rest, decodeBytes om [ir, a, b] = .ok (i, rest) := by
  cases hm : lookupOpcode om ir with
  | none => simp [decodeWith_of_lookupOpcode_none hm, decodeBytes_of_lookupOpcode_none hm]
  | some m => simp [decodeWith_of_lookupOpcode hm, decodeBytes_eq_ok_iff hm, m.length_le]

/-- Settles O18: each direction through `decodeBytes_eq_ok_iff`, which says when and to what a recognised opcode
decodes. -/
theorem decodeAndEncodeAgree : Obligations.DecodeAndEncodeAgree :=
  ⟨fun _ i rest hom => decodeBytes_encodeWith hom i rest, decodeBytes_encodeWith opcodeOf_injective,
    fun _ _ _ _ => eq_encodeWith_of_decodeBytes, fun _ _ _ _ _ => decodeWith_eq_ok_iff_decodeBytes⟩

/-- Settles O19: each word decodes by computation. -/
theorem writtenOutWordsDecode : Obligations.WrittenOutWordsDecode := by
  unfold Obligations.WrittenOutWordsDecode
  decide

theorem assemble_of_format_Z {m : Mnemonic} (h : m.format = .Z) (a b a' b' : Byte) :
    assemble m a b = assemble m a' b' := by
  cases m with
  | hlt | ret => rfl
  | _ => exact nomatch h

theorem assemble_of_format_R {m : Mnemonic} (h : m.format = .R) (a b b' : Byte) : assemble m a b = assemble m a b' := by
  cases m with
  | prn | push | pop | call | jmp | jeq | jne => rfl
  | _ => exact nomatch h

/-- Settles O22: a recognised opcode decodes to what `assemble` makes of the operand bytes its format uses. -/
theorem unusedOperandBytesAreIgnored : Obligations.UnusedOperandBytesAreIgnored := by
  intro om ir m hm
  refine ⟨fun hZ a b a' b' => ?_, fun hR a b b' => ?_⟩
  · rw [decodeWith_of_lookupOpcode hm, decodeWith_of_lookupOpcode hm, assemble_of_format_Z hZ a b a' b']
  · rw [decodeWith_of_lookupOpcode hm, decodeWith_of_lookupOpcode hm, assemble_of_format_R hR a b b']

end Sys2Proof

/-! ## One cycle as a relation

A Running core's cycle either raises one fault, at one of the stages of 40_fetch_decode_execute.md R60, or completes the
instruction it fetched. `StepRaises` and `StepCompletes` list the two, and `cycle_next_iff` ties them to `cycle`. A
claim about every step is then a case analysis on a fault and on a completed instruction. -/

namespace Sys2Proof.Machine

/-- `StepRaises om s f`: the cycle of the Running core `s` raises `f`. -/
inductive StepRaises (om : OpcodeMap) (s : State) : CoreFault → Prop where
  | fetchOutOfRange (hpc : lastFetchPc < s.pc) : StepRaises om s (.fetchOutOfRange s.pc)
  | unsupportedOpcode (hpc : s.pc ≤ lastFetchPc) (hl : lookupOpcode om (s.byteAtPc 0) = none) :
      StepRaises om s (.unsupportedOpcode s.pc (s.byteAtPc 0))
  | instr {i : Instr} {f : CoreFault} (hpc : s.pc ≤ lastFetchPc) (hi : s.fetchedInstr om = .ok i)
      (h : Raises i s.fetch f) : StepRaises om s f

/-- `StepCompletes om s t`: the cycle of the Running core `s` completes the instruction it fetches, in the state `t`. -/
inductive StepCompletes (om : OpcodeMap) (s t : State) : Prop where
  | intro {i : Instr} (hpc : s.pc ≤ lastFetchPc) (hi : s.fetchedInstr om = .ok i) (h : Completes i s.fetch t)

theorem Completes.unfaulted {i : Instr} {s t : State} (h : Completes i s t) (hs : s.status = .running) :
    t.Unfaulted := by
  intro f hf
  by_cases he : t.status = s.status
  · exact nomatch (he.trans hs).symm.trans hf
  · cases h with
    | hlt => exact nomatch hf
    | _ => exact he rfl

section
variable {om : OpcodeMap} {s t u : State} {f : CoreFault}

theorem StepCompletes.unfaulted (h : StepCompletes om s t) (hr : s.status = .running) : t.Unfaulted := by
  obtain ⟨-, -, h⟩ := h
  exact h.unfaulted hr

theorem cycle_of_stepRaises (hr : s.status = .running) (h : StepRaises om s f) : cycle om s = .next (s.raise f) := by
  cases h with
  | fetchOutOfRange hpc => exact cycle_of_fetchOutOfRange om hr hpc
  | unsupportedOpcode hpc hl => exact cycle_of_lookupOpcode_none ⟨hr, hpc⟩ hl
  | instr hpc hi h =>
    rw [cycle_of_decode_ok om hr hpc hi, exec_of_raises h]
    exact s.commit_next_of_faulted rfl

theorem cycle_of_stepCompletes (hr : s.status = .running) (h : StepCompletes om s t) : cycle om s = .next t := by
  have hok := h.unfaulted hr
  obtain ⟨hpc, hi, h⟩ := h
  rw [cycle_of_decode_ok om hr hpc hi, exec_of_completes h]
  exact s.commit_next_of_not_faulted hok

theorem stepRaises_or_stepCompletes (om : OpcodeMap) (s : State) :
    (∃ f, StepRaises om s f) ∨ ∃ t, StepCompletes om s t := by
  rcases Nat.lt_or_ge lastFetchPc s.pc with hpc | hpc
  · exact .inl ⟨_, .fetchOutOfRange hpc⟩
  · cases hl : lookupOpcode om (s.byteAtPc 0) with
    | none => exact .inl ⟨_, .unsupportedOpcode hpc hl⟩
    | some m =>
      have hi : s.fetchedInstr om = .ok (assemble m (s.byteAtPc 1) (s.byteAtPc 2)) := decodeWith_of_lookupOpcode hl _ _
      rcases completes_or_raises (assemble m (s.byteAtPc 1) (s.byteAtPc 2)) s.fetch with ⟨t, ht⟩ | ⟨f, hf⟩
      · exact .inr ⟨t, hpc, hi, ht⟩
      · exact .inl ⟨f, .instr hpc hi hf⟩

/-- Everything a cycle can answer. -/
theorem cycle_next_iff :
    cycle om s = .next u ↔
      s.status = .running ∧ ((∃ f, StepRaises om s f ∧ u = s.raise f) ∨ StepCompletes om s u) := by
  constructor
  · intro h
    have hr := (cycle_cases h).1
    refine ⟨hr, ?_⟩
    rcases stepRaises_or_stepCompletes om s with ⟨f, hf⟩ | ⟨t, ht⟩
    · have : s.raise f = u := by simpa [cycle_of_stepRaises hr hf] using h
      exact .inl ⟨f, hf, this.symm⟩
    · have : t = u := by simpa [cycle_of_stepCompletes hr ht] using h
      exact .inr (this ▸ ht)
  · rintro ⟨hr, ⟨f, hf, rfl⟩ | h⟩
    · exact cycle_of_stepRaises hr hf
    · exact cycle_of_stepCompletes hr h

theorem StepCompletes.of_cycle (h : cycle om s = .next t) (ht : t.Unfaulted) : StepCompletes om s t := by
  obtain ⟨-, ⟨f, -, rfl⟩ | h⟩ := cycle_next_iff.mp h
  · exact absurd rfl (ht f)
  · exact h

theorem StepRaises.of_cycle (h : cycle om s = .next t) (ht : t.status = .faulted f) :
    StepRaises om s f ∧ t = s.raise f := by
  obtain ⟨hr, ⟨g, hg, rfl⟩ | h⟩ := cycle_next_iff.mp h
  · obtain rfl : g = f := by simpa using ht
    exact ⟨hg, rfl⟩
  · exact absurd ht (h.unfaulted hr f)

end

/-! ### A raised fault tells the truth -/

/-- What a fault of an instruction asserts holds of the state it was fetched in (60_exceptions.md R95). -/
theorem Raises.faultHolds {om : OpcodeMap} {i : Instr} {s : State} {f : CoreFault} (h : Raises i s.fetch f)
    (hpc : s.pc ≤ lastFetchPc) (hi : s.fetchedInstr om = .ok i) : s.FaultHolds om f := by
  have hm := State.fetchedMnemonic_of_fetchedInstr hi
  cases h with
  | badRegister _ hbad => exact ⟨rfl, hpc, rfl, i, hi, hbad⟩
  | pushOverflow _ _ hsp => exact ⟨rfl, hpc, rfl, hsp, .inl hm⟩
  | callOverflow _ _ hsp => exact ⟨rfl, hpc, rfl, hsp, .inr hm⟩
  | popUnderflow _ _ hsp => exact ⟨rfl, hpc, rfl, hsp, .inl hm⟩
  | retUnderflow _ hsp => exact ⟨rfl, hpc, rfl, hsp, .inr hm⟩

theorem StepRaises.faultHolds {om : OpcodeMap} {s : State} {f : CoreFault} (h : StepRaises om s f) :
    s.FaultHolds om f := by
  cases h with
  | fetchOutOfRange hpc => exact ⟨rfl, hpc⟩
  | unsupportedOpcode hpc hl => exact ⟨rfl, hpc, rfl, hl⟩
  | instr hpc hi h => exact h.faultHolds hpc hi

/-- A fault reads `pc`, `sp` and memory alone, so it holds of the state that records it too. -/
theorem State.faultHolds_raise {om : OpcodeMap} {s : State} {f : CoreFault} (h : s.FaultHolds om f) (g : CoreFault) :
    (s.raise g).FaultHolds om f := by
  cases f <;> exact h

/-! ### The invariant -/

section
variable {i : Instr} {s t : State}

theorem Completes.mem_wf (h : Completes i s t) (hm : s.mem.wf) : t.mem.wf := by
  cases h with
  | push | call => exact Memory.write_wf hm _ _
  | _ => exact hm

theorem Completes.flags_le_one (h : Completes i s t) (hs : ¬ (s.E ∧ s.L) ∧ ¬ (s.E ∧ s.G) ∧ ¬ (s.L ∧ s.G)) :
    ¬ (t.E ∧ t.L) ∧ ¬ (t.E ∧ t.G) ∧ ¬ (t.L ∧ t.G) := by
  cases h with
  | @cmp a b _ ha hb =>
    rcases compareFlags_oneHot (s.reg ⟨a.toNat, ha⟩) (s.reg ⟨b.toNat, hb⟩) with h | h | h <;> simp [h]
  | _ => exact hs

/-- From a `pc` that can be fetched, no instruction leaves 0..256 (10_state.md R19). -/
theorem Completes.pc_le_256 (h : Completes i s t) (hpc : s.pc ≤ lastFetchPc) : t.pc ≤ 256 := by
  have hle := h.pc_le
  rw [lastFetchPc] at hpc
  omega

end

theorem State.statusHolds_of_running {om : OpcodeMap} {s : State} (h : s.status = .running) : s.StatusHolds om := by
  simp [State.StatusHolds, h]

/-- Only HLT ends a run without a fault, and it leaves `pc` just past its own byte (45_system_io.md R91). -/
theorem StepCompletes.statusHolds {om : OpcodeMap} {s t : State} (h : StepCompletes om s t)
    (hr : s.status = .running) : t.StatusHolds om := by
  obtain ⟨hpc, hi, h⟩ := h
  have hlookup := State.fetchedMnemonic_of_fetchedInstr hi
  cases h with
  | hlt => exact ⟨Nat.le_add_left 1 s.pc, Nat.succ_le_succ hpc, (lookupOpcode_sound hlookup).symm⟩
  | _ => exact State.statusHolds_of_running hr

theorem cycle_inv {om : OpcodeMap} {s t : State} (hs : s.Inv om) (h : cycle om s = .next t) : t.Inv om := by
  obtain ⟨hr, ⟨f, hf, rfl⟩ | hc⟩ := cycle_next_iff.mp h
  · exact ⟨hs.mem_wf, hs.pc_le, hs.flags_le_one, State.faultHolds_raise hf.faultHolds f⟩
  · have hstatus := hc.statusHolds hr
    obtain ⟨hpc, -, hc⟩ := hc
    exact ⟨hc.mem_wf hs.mem_wf, hc.pc_le_256 hpc, hc.flags_le_one hs.flags_le_one, hstatus⟩

/-- Settles O4: a fault writes the status alone, and tells the truth; a completed instruction keeps each part. -/
theorem everyStepKeepsTheInvariant : Obligations.EveryStepKeepsTheInvariant :=
  ⟨fun _ _ _ => cycle_inv, fun _ _ => cycle_inv⟩

end Sys2Proof.Machine

/-! ## Loading a program

`State.boot` writes the program's bytes from address 0 upward over the reset state (70_reset_and_hazards.md R109), so
that the cells above it still read 0. -/

namespace Sys2Proof.Machine

theorem State.boot_of_length_le {program : List Byte} (h : program.length ≤ 256) :
    State.boot program = .next { State.reset with mem := State.reset.mem.writeAll 0 program } :=
  if_neg (Nat.not_lt.mpr h)

theorem State.boot_of_lt_length {program : List Byte} (h : 256 < program.length) :
    State.boot program = .refused (.programTooLong program.length) :=
  if_pos h

theorem State.boot_read_above {program : List Byte} {t : State} (h : State.boot program = .next t) {k : Nat}
    (hk : program.length ≤ k) (hlt : k < 256) : t.mem.read (BitVec.ofNat 8 k) = 0 := by
  obtain ⟨-, rfl⟩ := State.boot_eq_next h
  refine Memory.read_writeAll_outside [] 0 (BitVec.ofNat 8 k) program fun i hi e => ?_
  have hki : k % 2 ^ 8 = i % 2 ^ 8 := by simpa using congrArg BitVec.toNat e
  omega

/-- Settles O2: inside the program by `boot_read`, above it by `boot_read_above`. -/
theorem bootPlacesTheProgramAtZero : Obligations.BootPlacesTheProgramAtZero := by
  refine fun program => ⟨fun hlen => ?_, State.boot_of_lt_length⟩
  have hboot := State.boot_of_length_le hlen
  exact ⟨_, hboot, rfl, State.boot_read hboot, fun _ => State.boot_read_above hboot⟩

theorem State.reset_inv (om : OpcodeMap) : State.reset.Inv om :=
  ⟨Memory.nil_wf, Nat.zero_le 256, by decide, trivial⟩

theorem State.boot_inv {program : List Byte} {t : State} (om : OpcodeMap) (h : State.boot program = .next t) :
    t.Inv om := by
  obtain ⟨-, rfl⟩ := State.boot_eq_next h
  obtain ⟨hmem, hpc, hflags, hstatus⟩ := State.reset_inv om
  exact ⟨Memory.writeAll_wf hmem 0 program, hpc, hflags, hstatus⟩

/-- Settles O3: loading changes memory alone, and keeps its canonical form. -/
theorem resetAndBootMeetTheInvariant : Obligations.ResetAndBootMeetTheInvariant :=
  fun om => ⟨State.reset_inv om, fun _ _ => State.boot_inv om⟩

theorem lookupOpcode_opcodeOf_zero : lookupOpcode opcodeOf 0 = none := by decide

/-- Settles O26: the cell still reads 0, which is no opcode of the default map. -/
theorem runningOffTheProgramFaults : Obligations.RunningOffTheProgramFaults := by
  intro program s u hboot hu hlen hread
  have hpc : u.pc ≤ lastFetchPc := hu.2
  rw [lastFetchPc] at hpc
  have hzero : u.byteAtPc 0 = 0 := hread.trans (State.boot_read_above hboot hlen (by omega))
  have hcycle := cycle_of_lookupOpcode_none hu (hzero ▸ lookupOpcode_opcodeOf_zero)
  rwa [hzero] at hcycle

end Sys2Proof.Machine

/-! ## Claims about every step and every run

Each claim about a step is a case analysis on `cycle_next_iff`, with one lemma that says what a completed instruction
does to the field in question. -/

namespace Sys2Proof.Machine

/-- Settles O6: a Running core raises or completes, and no raised fault is AluUnsupported, which never holds. -/
theorem runningCoreAlwaysSteps : Obligations.RunningCoreAlwaysSteps := by
  intro om s hr
  obtain ⟨t, ht⟩ := cycle_next_of_running om hr
  exact ⟨t, ht, fun pc ir hf => (StepRaises.of_cycle ht hf).1.faultHolds⟩

/-- Settles O7: a step that faults raised the fault, and a raised fault tells the truth. -/
theorem faultsArePrecise : Obligations.FaultsArePrecise := by
  intro om s t f h hf
  obtain ⟨hraises, rfl⟩ := StepRaises.of_cycle h hf
  exact ⟨rfl, State.faultHolds_raise hraises.faultHolds f⟩

/-- Settles O9: the cycle looks at the status first, and nothing is reached from a core that is not Running. -/
theorem noStepExistsAfterTheEnd : Obligations.NoStepExistsAfterTheEnd := by
  refine fun om s => ⟨fun hs => by simp [cycle, hs], fun f hs => ⟨by simp [cycle, hs], fun t hr => ?_⟩⟩
  exact hr.eq_of_ended (by simp [hs])

/-- Settles O25: the fetch window is checked before memory is read. -/
theorem fetchAbove253Faults : Obligations.FetchAbove253Faults :=
  fun om _ hr hpc => cycle_of_fetchOutOfRange om hr hpc

/-! ### What a completed instruction does to one field -/

section
variable {i : Instr} {s t : State}

theorem Completes.sameLatches (h : Completes i s t) : SameLatches s t := by
  cases h <;> exact ⟨rfl, rfl, rfl⟩

theorem Completes.pc_of_not_transfer (h : Completes i s t)
    (hi : i.mnemonic ∉ [Mnemonic.jmp, .jeq, .jne, .call, .ret]) : t.pc = s.pc + i.mnemonic.length := by
  cases h with
  | call | ret | jmp | jeqTaken | jeqFalls | jneTaken | jneFalls => simp [Instr.mnemonic] at hi
  | _ => rfl

/-- An untaken branch is in 0..255 too, since its three bytes were fetched. -/
theorem Completes.pc_of_transfer (h : Completes i s t) (hpc : s.pc ≤ lastFetchPc)
    (hi : i.mnemonic ∈ [Mnemonic.jmp, .jeq, .jne, .call, .ret]) : t.pc < 256 := by
  cases h with
  | call | ret | jmp | jeqTaken | jneTaken => exact BitVec.isLt _
  | jeqFalls | jneFalls => exact Nat.lt_succ_of_le (Nat.add_le_add_right hpc 2)
  | _ => simp [Instr.mnemonic] at hi

theorem Completes.sp_of_push (h : Completes i s t) (hi : i.mnemonic ∈ [Mnemonic.push, .call]) :
    t.sp.toNat + 1 = s.sp.toNat := by
  cases h with
  | push _ _ hsp | call _ _ hsp =>
    show (s.sp - 1).toNat + 1 = s.sp.toNat
    bv_omega
  | _ => simp [Instr.mnemonic] at hi

theorem Completes.sp_of_pop (h : Completes i s t) (hi : i.mnemonic ∈ [Mnemonic.pop, .ret]) :
    t.sp.toNat = s.sp.toNat + 1 := by
  cases h with
  | pop _ _ hsp | ret _ hsp =>
    show (s.sp + 1).toNat = s.sp.toNat + 1
    bv_omega
  | _ => simp [Instr.mnemonic] at hi

/-- Only PUSH and CALL write memory, at the decremented `sp` (20_memory.md R35). -/
theorem Completes.mem_read_ne (h : Completes i s t) {a : Addr} (hne : t.mem.read a ≠ s.mem.read a) :
    (i.mnemonic = .push ∨ i.mnemonic = .call) ∧ s.sp ≠ 0 ∧ a = s.sp - 1 := by
  cases h with
  | push _ _ hsp =>
    refine ⟨.inl rfl, hsp, ?_⟩
    by_contra ha
    exact hne (Memory.read_write_ne _ ha _)
  | call _ _ hsp =>
    refine ⟨.inr rfl, hsp, ?_⟩
    by_contra ha
    exact hne (Memory.read_write_ne _ ha _)
  | _ => exact absurd rfl hne

theorem Completes.out_cases (h : Completes i s t) :
    t.out = s.out ∨ ∃ (a : Byte) (ha : a.toNat < 8), i = .prn a ∧ t.out = s.out ++ [s.reg ⟨a.toNat, ha⟩] := by
  cases h with
  | prn _ ha => exact .inr ⟨_, ha, rfl, rfl⟩
  | _ => exact .inl rfl

end

/-! ### The claims -/

theorem cycle_of_fetched_hlt {om : OpcodeMap} {s : State} (hr : s.status = .running) (hpc : s.pc ≤ lastFetchPc)
    (hm : s.fetchedMnemonic om = some .hlt) : cycle om s = .next ((s.fetch.setStatus .halted).advance 1) :=
  cycle_of_stepCompletes hr ⟨hpc, decodeWith_of_lookupOpcode hm _ _, .hlt s.fetch⟩

/-- Settles O10: a clean end is no fault, so an instruction completed that wrote the status, and only HLT does. -/
theorem onlyHltEndsCleanly : Obligations.OnlyHltEndsCleanly := by
  intro om s t h
  have hr := (cycle_cases h).1
  refine ⟨fun hend => ?_, fun ⟨hpc, hm⟩ => ?_⟩
  · obtain ⟨hpc, hi, hcomp⟩ := StepCompletes.of_cycle h fun f hf => nomatch hend.symm.trans hf
    have hhlt := hcomp.status_ne fun e => nomatch hend.symm.trans (e.trans hr)
    exact ⟨hpc, hhlt ▸ State.fetchedMnemonic_of_fetchedInstr hi⟩
  · rw [cycle_of_fetched_hlt hr hpc hm] at h
    cases h
    rfl

/-- Settles O11: the fetched instruction completed, and each of its two kinds moves `pc` in its way. -/
theorem programCounterMovesByLengthOrTransfer : Obligations.ProgramCounterMovesByLengthOrTransfer := by
  intro om s t h ht
  obtain ⟨hpc, hi, hcomp⟩ := StepCompletes.of_cycle h ht
  exact ⟨_, State.fetchedMnemonic_of_fetchedInstr hi, hcomp.pc_of_not_transfer, hcomp.pc_of_transfer hpc⟩

/-- Settles O12: the fetched instruction completed, and only four of them write `sp`. -/
theorem stackPointerMovesByOne : Obligations.StackPointerMovesByOne := by
  intro om s t h ht
  obtain ⟨-, hi, hcomp⟩ := StepCompletes.of_cycle h ht
  refine ⟨_, State.fetchedMnemonic_of_fetchedInstr hi, hcomp.sp_of_push, hcomp.sp_of_pop, fun hm => ?_⟩
  by_contra hne
  have hperm : [Mnemonic.push, .pop, .call, .ret].Perm [.push, .call, .pop, .ret] := .cons _ (.swap _ _ _)
  exact hm (hperm.mem_iff.mp (hcomp.sp_ne hne))

/-- Settles O13: a fault writes no memory, and a completed instruction at most the byte below `sp`. -/
theorem memoryChangesOnlyJustBelowTheStackPointer : Obligations.MemoryChangesOnlyJustBelowTheStackPointer := by
  intro om s t a h hne
  obtain ⟨-, ⟨f, -, rfl⟩ | ⟨-, hi, hcomp⟩⟩ := cycle_next_iff.mp h
  · exact absurd rfl hne
  · obtain ⟨hm, hsp, ha⟩ := hcomp.mem_read_ne hne
    rw [State.fetchedMnemonic_of_fetchedInstr hi, Option.some.injEq, Option.some.injEq]
    exact ⟨hm, hsp, ha⟩

theorem State.assemble_of_fetchedInstr {om : OpcodeMap} {s : State} {i : Instr} (h : s.fetchedInstr om = .ok i) :
    assemble i.mnemonic (s.byteAtPc 1) (s.byteAtPc 2) = i := by
  have hd := decodeWith_of_lookupOpcode (State.fetchedMnemonic_of_fetchedInstr h) (s.byteAtPc 1) (s.byteAtPc 2)
  exact Except.ok.inj (hd.symm.trans h)

theorem cycle_out {om : OpcodeMap} {s t : State} (h : cycle om s = .next t) :
    t.out = s.out ∨
      (s.fetchedMnemonic om = some .prn ∧ ∃ h : (s.byteAtPc 1).toNat < 8, t.out = s.out ++ [s.reg ⟨_, h⟩]) := by
  obtain ⟨-, ⟨f, -, rfl⟩ | ⟨-, hi, hcomp⟩⟩ := cycle_next_iff.mp h
  · exact .inl rfl
  · obtain hout | ⟨a, ha, rfl, hout⟩ := hcomp.out_cases
    · exact .inl hout
    · obtain rfl : s.byteAtPc 1 = a := Instr.prn.inj (State.assemble_of_fetchedInstr hi)
      exact .inr ⟨State.fetchedMnemonic_of_fetchedInstr hi, ha, hout⟩

/-- Settles O14: one step by `cycle_out`, a run because each step keeps the old output in front. -/
theorem outputOnlyGrows : Obligations.OutputOnlyGrows := by
  refine ⟨fun om s t hrun => ?_, fun _ _ _ => cycle_out⟩
  refine StepsWhere.invariant hrun (I := fun u => s.out <+: u.out) (fun u v _ hpre hc => ?_) ⟨[], List.append_nil s.out⟩
  obtain hout | ⟨-, _, hout⟩ := cycle_out hc
  · exact hout ▸ hpre
  · exact hout ▸ hpre.trans ⟨_, rfl⟩

/-- A jump to its own address changes nothing but the latches. -/
theorem cycle_of_selfJump {om : OpcodeMap} {s : State} {a : Byte} (ha : a.toNat < 8) (hs : s.CanFetch)
    (hi : s.fetchedInstr om = .ok (.jmp a)) (htarget : (s.reg ⟨a.toNat, ha⟩).toNat = s.pc) :
    cycle om s = .next s.fetch := by
  have hcomp : Completes (.jmp a) s.fetch (s.fetch.setPc (s.reg ⟨a.toNat, ha⟩).toNat) := .jmp s.fetch ha
  rw [htarget] at hcomp
  exact cycle_of_stepCompletes hs.1 ⟨hs.2, hi, hcomp⟩

/-- Settles O16: the start is left for its latched form, and that one for itself. -/
theorem selfJumpHangs : Obligations.SelfJumpHangs := by
  intro om s a ha hs hi htarget
  have hcycle : ∀ u, u = s ∨ u = s.fetch → cycle om u = .next s.fetch := by
    rintro u (rfl | rfl)
    · exact cycle_of_selfJump ha hs hi htarget
    · exact cycle_of_selfJump (s := s.fetch) ha hs hi htarget
  have hangs : Hangs om s := by
    intro t hrun
    have hreached : t = s ∨ t = s.fetch := by
      refine StepsWhere.invariant hrun (I := fun u => u = s ∨ u = s.fetch) (fun u v _ hu hc => ?_) (.inl rfl)
      rw [hcycle u hu] at hc
      injection hc with hv
      exact .inr hv.symm
    rcases hreached with rfl | rfl <;> exact hs.1
  exact ⟨hangs, fun t hrun ⟨f, hf⟩ => nomatch (hangs t hrun).symm.trans hf⟩

/-- Settles O23: `exec` completes or raises, and the cycle commits its state or the fault alone. -/
theorem stepRunsTheFetchedInstruction : Obligations.StepRunsTheFetchedInstruction := by
  refine ⟨fun om s i ⟨hr, hpc⟩ hi => ?_, fun _ => rfl⟩
  rcases completes_or_raises i s.fetch with ⟨t, ht⟩ | ⟨f, hf⟩
  · exact ⟨t, exec_of_completes ht, fun _ => ⟨cycle_of_stepCompletes hr ⟨hpc, hi, ht⟩, ht.sameLatches⟩,
      fun f hf => absurd hf (ht.unfaulted hr f)⟩
  · refine ⟨_, exec_of_raises hf, fun hok => absurd rfl (hok f), fun g hg => ?_⟩
    cases hg
    exact cycle_of_stepRaises hr (.instr hpc hi hf)

/-! ### The latches of earlier instructions -/

theorem StepRaises.latch {om : OpcodeMap} {s : State} {f : CoreFault} (h : StepRaises om s f) (x y z : Byte) :
    StepRaises om (s.latch x y z) f := by
  cases h with
  | fetchOutOfRange hpc => exact .fetchOutOfRange (s := s.latch x y z) hpc
  | unsupportedOpcode hpc hl => exact .unsupportedOpcode (s := s.latch x y z) hpc hl
  | instr hpc hi h => exact .instr (s := s.latch x y z) hpc hi h

theorem StepCompletes.latch {om : OpcodeMap} {s t : State} (h : StepCompletes om s t) (x y z : Byte) :
    StepCompletes om (s.latch x y z) t := by
  obtain ⟨hpc, hi, h⟩ := h
  exact .intro (s := s.latch x y z) hpc hi h

/-- Settles O29: the fetch overwrites the latches before anything reads them, and a fault restores the old ones. -/
theorem oldLatchesInfluenceNothing : Obligations.OldLatchesInfluenceNothing := by
  intro om s x y z hr
  rcases stepRaises_or_stepCompletes om s with ⟨f, hf⟩ | ⟨t, ht⟩
  · exact ⟨_, _, cycle_of_stepRaises hr hf, cycle_of_stepRaises hr (hf.latch x y z), .inr ⟨⟨f, rfl⟩, rfl⟩⟩
  · exact ⟨t, t, cycle_of_stepCompletes hr ht, cycle_of_stepCompletes hr (ht.latch x y z), .inl ⟨ht.unfaulted hr, rfl⟩⟩

/-! ### Runs of loaded programs -/

theorem State.run_next (om : OpcodeMap) (n : Nat) (s : State) : ∃ t, State.run om n s = .next t := by
  induction n generalizing s with
  | zero => exact ⟨s, rfl⟩
  | succ n ih =>
    by_cases hr : s.status = .running
    · obtain ⟨u, hu⟩ := cycle_next_of_running om hr
      exact State.run_succ om n hu ▸ ih u
    · exact ⟨s, State.run_of_ended om (n + 1) hr⟩

theorem Reaches.inv {om : OpcodeMap} {s t : State} (h : Reaches om s t) (hs : s.Inv om) : t.Inv om :=
  StepsWhere.invariant h (fun _ _ _ => cycle_inv) hs

/-- Settles O5: the invariant holds after the load and every step keeps it; a run that has ended stays. -/
theorem everyLoadedRunEndsTruthfullyOrGoesOn : Obligations.EveryLoadedRunEndsTruthfullyOrGoesOn := by
  intro om program s fuel hboot
  obtain ⟨t, ht⟩ := State.run_next om fuel s
  refine ⟨t, ht, (State.run_reaches ht).inv (State.boot_inv om hboot), fun hend more => ?_⟩
  rw [State.run_add more ht, State.run_of_ended om more hend]

end Sys2Proof.Machine

/-! ## The instructions one by one

Each statement is the instruction's rule in `Completes` or `Raises`, and the state it answers differs from the old one
in the fields the statement names. -/

namespace Sys2Proof.Machine

/-- Settles O27: by `exec_of_firstBadField`, the register check that opens every handler. -/
theorem badRegisterComesFirst : Obligations.BadRegisterComesFirst :=
  fun _ s _ _ h => exec_of_firstBadField s h

/-- Settles O28: by the four rules of `Raises` for the bounds of the stack. -/
theorem stackBoundsFault : Obligations.StackBoundsFault := by
  refine ⟨fun a s ha hsp => ⟨?_, ?_⟩, fun a s ha hsp => ⟨?_, ?_⟩⟩
  · exact hsp ▸ exec_of_raises (.pushOverflow s ha hsp)
  · exact hsp ▸ exec_of_raises (.callOverflow s ha hsp)
  · exact hsp ▸ exec_of_raises (.popUnderflow s ha hsp)
  · exact hsp ▸ exec_of_raises (.retUnderflow s hsp)

/-- Settles O30: one register write and an advance. -/
theorem ldiLoadsItsImmediate : Obligations.LdiLoadsItsImmediate :=
  fun _ b ha s =>
    ⟨_, exec_of_completes (.ldi s ha), s.reg_setReg_same _ b, rfl, s.setReg_advance_frame _ b 3⟩

/-- Settles O32: the three cases by `compareFlags_spec`. -/
theorem cmpComparesUnsigned : Obligations.CmpComparesUnsigned := by
  intro a b ha hb s
  obtain ⟨hE, hL, hG⟩ := compareFlags_spec (s.reg ⟨a.toNat, ha⟩) (s.reg ⟨b.toNat, hb⟩)
  exact ⟨_, exec_of_completes (.cmp s ha hb), hE, hL, hG, rfl, fun _ _ => rfl, fun _ _ => rfl, rfl, rfl,
    ⟨rfl, rfl, rfl⟩, rfl⟩

theorem Completes.push_pushed {a : Byte} {s t : State} (h : Completes (.push a) s t) (ha : a.toNat < 8)
    (hm : s.mem.wf) : Pushed s (s.reg ⟨a.toNat, ha⟩) t := by
  cases h with
  | push _ _ hsp => exact pushed_of_write hm hsp rfl rfl

theorem Completes.call_pushed {a : Byte} {s t : State} (h : Completes (.call a) s t) (hm : s.mem.wf) :
    Pushed s s.returnAddress t := by
  cases h with
  | call _ _ hsp => exact pushed_of_write hm hsp rfl rfl

/-- Settles O34: the stored byte and the rest of memory because PUSH is a push. -/
theorem pushStoresAtTheNewStackPointer : Obligations.PushStoresAtTheNewStackPointer := by
  intro a ha s hm hsp
  have hcomp := Completes.push s ha hsp
  have hpush := hcomp.push_pushed ha hm
  exact ⟨_, exec_of_completes hcomp, rfl, hpush.top, rfl, hpush.mem, fun _ _ => rfl, ⟨rfl, rfl, rfl⟩, rfl,
    ⟨rfl, rfl, rfl⟩, rfl⟩

/-- Settles O35: a register write of the byte at `sp`. -/
theorem popLoadsFromTheStackPointer : Obligations.PopLoadsFromTheStackPointer := by
  intro a ha s hsp
  exact ⟨_, exec_of_completes (.pop s ha hsp), State.reg_setReg_same _ _ _, rfl, rfl,
    State.sameRegs_setReg (s.setSp (s.sp + 1)) _ _, fun _ _ => rfl, ⟨rfl, rfl, rfl⟩, rfl, ⟨rfl, rfl, rfl⟩, rfl⟩

/-- Settles O36: CALL is a push of the return address, which is exact by `returnAddress_toNat`. -/
theorem callSavesTheReturnAddress : Obligations.CallSavesTheReturnAddress := by
  intro a ha s hm hsp hpc
  have hcomp := Completes.call s ha hsp
  have hpush := hcomp.call_pushed hm
  have hret := (congrArg BitVec.toNat hpush.top).trans (State.returnAddress_toNat hpc)
  exact ⟨_, exec_of_completes hcomp, rfl, rfl, hret, hpush.mem, fun _ _ => rfl, ⟨rfl, rfl, rfl⟩, rfl,
    ⟨rfl, rfl, rfl⟩, rfl⟩

/-- Settles O37: by the rule for RET. -/
theorem retJumpsToThePoppedByte : Obligations.RetJumpsToThePoppedByte :=
  fun s hsp => ⟨_, exec_of_completes (.ret s hsp), rfl, rfl, fun _ _ => rfl, fun _ _ => rfl, ⟨rfl, rfl, rfl⟩, rfl,
    ⟨rfl, rfl, rfl⟩, rfl⟩

/-- Settles O38: a jump writes `pc` alone. -/
theorem jmpGoesToTheRegister : Obligations.JmpGoesToTheRegister :=
  fun _ ha s => ⟨_, exec_of_completes (.jmp s ha), rfl, s.setPc_frame _⟩

/-- Settles O39: both jumps write `pc` alone, and E chooses between the two targets. -/
theorem conditionalJumpsFollowEqual : Obligations.ConditionalJumpsFollowEqual := by
  intro a ha s
  obtain ⟨hjeq, hjne⟩ := exec_jeq_jne ha s
  exact ⟨⟨_, hjeq, fun hE => if_pos hE, fun hE => if_neg (by simp [hE]), s.setPc_frame _⟩,
    ⟨_, hjne, fun hE => if_pos hE, fun hE => if_neg (by simp [hE]), s.setPc_frame _⟩⟩

/-- Settles O40: by the rule for HLT. -/
theorem hltHaltsPastItself : Obligations.HltHaltsPastItself :=
  fun s => ⟨_, exec_of_completes (.hlt s), rfl, rfl, fun _ _ => rfl, fun _ _ => rfl, rfl, ⟨rfl, rfl, rfl⟩,
    ⟨rfl, rfl, rfl⟩, rfl⟩

/-- Settles O41: by the rule for PRN. -/
theorem prnAppendsTheRegister : Obligations.PrnAppendsTheRegister :=
  fun _ ha s => ⟨_, exec_of_completes (.prn s ha), rfl, rfl, fun _ _ => rfl, fun _ _ => rfl, rfl, ⟨rfl, rfl, rfl⟩, rfl,
    ⟨rfl, rfl, rfl⟩⟩

end Sys2Proof.Machine

/-! ## Laws of the stack across instructions -/

namespace Sys2Proof.Machine

section
variable {s t u : State} {v : Byte}

/-- What RET needs of the state it runs in: `sp` and the top byte as the push left them (43_stack_call.md R85). -/
theorem Pushed.exec_ret_of_top (h : Pushed s v t) (hsp : u.sp = t.sp) (htop : u.mem.read t.sp = t.mem.read t.sp) :
    ∃ w, exec .ret u = .next w ∧ w.pc = v.toNat ∧ w.sp = s.sp := by
  have hread : u.mem.read u.sp = v := by rw [hsp, htop, h.top]
  refine ⟨_, exec_of_completes (.ret u (hsp ▸ h.sp_ne)), congrArg BitVec.toNat hread, ?_⟩
  exact (congrArg (· + 1) hsp).trans h.sp_add_one

/-- What POP needs of the state it runs in, as for RET. -/
theorem Pushed.exec_pop_of_top (h : Pushed s v t) (hsp : u.sp = t.sp) (htop : u.mem.read t.sp = t.mem.read t.sp)
    {b : Byte} (hb : b.toNat < 8) : ∃ w, exec (.pop b) u = .next w ∧ w.reg ⟨b.toNat, hb⟩ = v ∧ w.sp = s.sp := by
  have hread : u.mem.read u.sp = v := by rw [hsp, htop, h.top]
  refine ⟨_, exec_of_completes (.pop u hb (hsp ▸ h.sp_ne)), (State.reg_setReg_same _ _ _).trans hread, ?_⟩
  exact (congrArg (· + 1) hsp).trans h.sp_add_one

end

/-- Settles O42: CALL and PUSH are pushes, and RET and POP take what is on top. -/
theorem callReturnAndPushPopBalance : Obligations.CallReturnAndPushPopBalance := by
  constructor
  · intro a s t u ha hm hsp hpc ht husp htop
    obtain ⟨t', ht', hpush⟩ := exec_call_pushed ha hm hsp
    obtain rfl : t' = t := by simpa [ht'] using ht
    rw [← State.returnAddress_toNat hpc]
    exact hpush.exec_ret_of_top husp htop
  · intro a b ha hb s t u hm hsp ht husp htop
    obtain ⟨t', ht', hpush⟩ := exec_push_pushed ha hm hsp
    obtain rfl : t' = t := by simpa [ht'] using ht
    exact hpush.exec_pop_of_top husp htop hb

/-- Settles O44: the fetch reads the memory that the push wrote. -/
theorem stackWritesAreSeenByTheNextFetch : Obligations.StackWritesAreSeenByTheNextFetch := by
  intro a ha s k hm hsp hpc
  obtain ⟨t, ht, htsp, hread, -⟩ := pushStoresAtTheNewStackPointer a ha s hm hsp
  obtain ⟨u, hu, -, -, hret, -⟩ := callSavesTheReturnAddress a ha s hm hsp hpc
  refine ⟨⟨t, ht, fun hk => ?_⟩, ⟨u, hu, fun hk => ?_⟩⟩
  · rw [State.byteAtPc, hk, hread]
  · rw [State.byteAtPc, hk, hret]

/-! ### Many pushes -/

theorem pushEach_cons {a : Byte} {as : List Byte} {s t : State} (h : exec (.push a) s = .next t) :
    pushEach (a :: as) s = pushEach as t := by
  simp [pushEach, h]

/-- `PushedAll s as t`: the state `t` has the stack of `s` with the values of the registers `as` more, entry `i`
standing `i + 1` below the old `sp`. -/
structure PushedAll (s : State) (as : List Byte) (t : State) : Prop where
  sp : t.sp.toNat + as.length = s.sp.toNat
  status : t.status = s.status
  regs : t.regs = s.regs
  entry : ∀ (i : Nat) (hi : i < as.length) (h : as[i].toNat < 8),
    t.mem.read (BitVec.ofNat 8 (s.sp.toNat - 1 - i)) = s.reg ⟨as[i].toNat, h⟩
  above : ∀ a : Addr, s.sp.toNat ≤ a.toNat → t.mem.read a = s.mem.read a

theorem PushedAll.nil (s : State) : PushedAll s [] s :=
  ⟨rfl, rfl, rfl, nofun, fun _ _ => rfl⟩

/-- One push, then the others: the first entry lies above all that the others write. -/
theorem PushedAll.cons {a : Byte} (ha : a.toNat < 8) {as : List Byte} {s u t : State}
    (hpush : Pushed s (s.reg ⟨a.toNat, ha⟩) u) (hstatus : u.status = s.status) (hregs : u.regs = s.regs)
    (h : PushedAll u as t) : PushedAll s (a :: as) t where
  sp := by
    rw [List.length_cons, ← Nat.add_assoc, h.sp, hpush.sp]
  status := h.status.trans hstatus
  regs := h.regs.trans hregs
  entry i hi hlt := by
    have hsp := hpush.sp
    cases i with
    | zero =>
      have haddr : BitVec.ofNat 8 (s.sp.toNat - 1 - 0) = u.sp := by bv_omega
      rw [haddr, h.above u.sp (Nat.le_refl _), hpush.top]
      rfl
    | succ j =>
      have haddr : s.sp.toNat - 1 - (j + 1) = u.sp.toNat - 1 - j := by omega
      rw [haddr, h.entry j (Nat.lt_of_succ_lt_succ hi) hlt, State.reg_congr hregs]
      rfl
  above b hb := by
    have hsp := hpush.sp
    rw [h.above b (by omega)]
    refine hpush.mem b fun hmem => ?_
    rw [List.mem_singleton.mp hmem] at hb
    omega

/-- As many pushes complete as there are cells below `sp`. -/
theorem pushEach_pushedAll {as : List Byte} (has : ∀ a ∈ as, a.toNat < 8) {s : State} (hm : s.mem.wf)
    (hlen : as.length ≤ s.sp.toNat) : ∃ t, pushEach as s = .next t ∧ PushedAll s as t := by
  induction as generalizing s with
  | nil => exact ⟨s, rfl, .nil s⟩
  | cons a as ih =>
    have ha : a.toNat < 8 := has a (.head _)
    have hsp : s.sp ≠ 0 := fun e => by simp [e] at hlen
    have hcomp := Completes.push s ha hsp
    have hpush := hcomp.push_pushed ha hm
    have hspu := hpush.sp
    rw [List.length_cons] at hlen
    obtain ⟨t, ht, hall⟩ := ih (fun b hb => has b (.tail _ hb)) (hcomp.mem_wf hm) (by omega)
    exact ⟨t, (pushEach_cons (exec_of_completes hcomp)).trans ht, .cons ha hpush rfl rfl hall⟩

/-- Settles O45: by `pushEach_pushedAll` at `sp` = 244; after 244 pushes `sp` is 0, where PUSH overflows. -/
theorem stackHolds244EntriesFromReset : Obligations.StackHolds244EntriesFromReset := by
  intro as s has hm hsp
  have h244 : s.sp.toNat = 244 := by simp [hsp]
  refine ⟨fun hlen => ?_, fun hlen b hb => ?_⟩
  · obtain ⟨t, ht, hall⟩ := pushEach_pushedAll has hm (h244 ▸ hlen)
    have hentry := hall.entry
    have habove := hall.above
    rw [h244] at hentry habove
    exact ⟨t, ht, hall.sp.trans h244, hall.status, hall.regs, hentry, habove⟩
  · obtain ⟨t, ht, hall⟩ := pushEach_pushedAll has hm (by omega)
    have hlow := hall.sp
    have hzero : t.sp = 0 := by bv_omega
    exact ⟨t, ht, (stackBoundsFault.1 b t hb hzero).1⟩

end Sys2Proof.Machine

/-! ## The trace

A line stands before each instruction of a Running core (10_state.md R33), and the trace of a run goes step by step with
the run (60_exceptions.md R106). -/

namespace Sys2Proof.Machine

section
variable {om : OpcodeMap} {s t : State}

/-- When a state has a line, and which. -/
theorem State.traceLine_eq_some_iff {l : TraceLine} :
    s.traceLine om = some l ↔
      s.CanFetch ∧ (∃ m, s.fetchedMnemonic om = some m) ∧
        l = ⟨s.pc, s.byteAtPc 0, s.byteAtPc 1, s.byteAtPc 2, s.regs⟩ := by
  by_cases hs : s.CanFetch
  · obtain ⟨hr, hpc⟩ := hs
    simp [State.traceLine, State.CanFetch, State.fetchedMnemonic, hr, hpc, Nat.not_lt.mpr hpc, eq_comm]
  · exact ⟨fun h => absurd (State.traceLine_canFetch h) hs, fun h => absurd h.1 hs⟩

theorem StepCompletes.traceLine (h : StepCompletes om s t) (hr : s.status = .running) :
    ∃ l, s.traceLine om = some l := by
  obtain ⟨hpc, hi, -⟩ := h
  exact ⟨_, State.traceLine_eq_some_iff.mpr ⟨⟨hr, hpc⟩, ⟨_, State.fetchedMnemonic_of_fetchedInstr hi⟩, rfl⟩⟩

theorem State.traceRun_add {j : Nat} (k : Nat) (h : State.run om j s = .next t) :
    State.traceRun om (j + k) s = State.traceRun om j s ++ State.traceRun om k t := by
  induction j generalizing s with
  | zero =>
    injection h with h
    rw [h, Nat.zero_add, State.traceRun_zero, List.nil_append]
  | succ j ih =>
    obtain ⟨hs, rfl⟩ | ⟨u, hu, hrun⟩ := State.run_succ_cases h
    · simp [State.traceRun_of_ended om _ hs]
    · rw [Nat.succ_add, State.traceRun_succ om _ hu, State.traceRun_succ om _ hu, ih hrun, List.append_assoc]

theorem State.traceRun_length_le (om : OpcodeMap) (n : Nat) (s : State) : (State.traceRun om n s).length ≤ n := by
  induction n generalizing s with
  | zero => exact Nat.le_refl 0
  | succ n ih =>
    by_cases hr : s.status = .running
    · obtain ⟨u, hu⟩ := cycle_next_of_running om hr
      have hline : (s.traceLine om).toList.length ≤ 1 := Option.length_toList_le
      have hrest := ih u
      rw [State.traceRun_succ om n hu, List.length_append]
      omega
    · simp [State.traceRun_of_ended om _ hr]

end

/-- Settles O49: the line by `traceLine_eq_some_iff`, the trace of a run by induction on its first part. -/
theorem traceGivesOneLinePerInstruction : Obligations.TraceGivesOneLinePerInstruction := by
  refine ⟨fun _ _ _ => State.traceLine_eq_some_iff, fun om s t h ht => ?_, fun _ _ k _ _ => State.traceRun_add k,
    fun om n s => ⟨State.traceRun_length_le om n s, State.traceRun_of_ended om n⟩⟩
  obtain ⟨l, hl⟩ := (StepCompletes.of_cycle h ht).traceLine (cycle_cases h).1
  exact ⟨l, hl, fun n => by rw [State.traceRun_succ om n h, hl, Option.toList_some, List.singleton_append]⟩

end Sys2Proof.Machine
